-- ==== Sys2Proof/Word.lean ====
section
/-! DEFINITION. The word types of the core: bytes, instruction words, 12-bit addresses and register numbers. -/

namespace Sys2Proof

/-- A memory cell or a general register: 8 bits (`10_state.md` R21, `20_memory.md` R50). -/
abbrev Byte := BitVec 8

/-- An instruction word, the program counter or a return address: 16 bits (`30_encoding.md` R70, `10_state.md` R27, R31). -/
abbrev Word := BitVec 16

/-- A 12-bit address: the `nnn` field and the value of the index register (`30_encoding.md` R71, `10_state.md` R26). -/
abbrev Addr := BitVec 12

/-- A four-bit field of the instruction word: a register number, the row count `n`, or a group of ignored bits
(`30_encoding.md` R71, R72). Every value is a valid register number. -/
abbrev Nibble := BitVec 4

end Sys2Proof
end

