-- ==== Sys2Proof/Syntax.lean ====
section
/-! DEFINITION. The instruction set: one constructor per row of the opcode table (`30_encoding.md` R77), in its order.
A constructor holds every field of its row, the ignored bits (R76) among them, so that no bit of a word is lost. -/

namespace Sys2Proof

/-- The 34 instructions (`30_encoding.md` R77, R78). `x`, `y` are register numbers, `kk` an immediate byte, `nnn` an
address, `n` a row count (R71); `ign` are the bits the dispatcher does not look at, which have no effect (R76). -/
inductive Instr where
  /-- `CLS`, `0-E0`: clear screen (R190). -/
  | cls (ign : Nibble)
  /-- `RET`, `0-EE`: return (R120). -/
  | ret (ign : Nibble)
  /-- `JP nnn`, `1nnn`: jump (R121). -/
  | jp (nnn : Addr)
  /-- `CALL nnn`, `2nnn`: call (R122). -/
  | call (nnn : Addr)
  /-- `SE Vx, kk`, `3xkk`: skip if equal (R123). -/
  | seImm (x : Nibble) (kk : Byte)
  /-- `SNE Vx, kk`, `4xkk`: skip if not equal (R124). -/
  | sneImm (x : Nibble) (kk : Byte)
  /-- `SE Vx, Vy`, `5xy-`: skip if equal (R125). -/
  | seReg (x y ign : Nibble)
  /-- `LD Vx, kk`, `6xkk`: load an immediate (R140). -/
  | ldImm (x : Nibble) (kk : Byte)
  /-- `ADD Vx, kk`, `7xkk`: add an immediate, no flag (R141). -/
  | addImm (x : Nibble) (kk : Byte)
  /-- `LD Vx, Vy`, `8xy0`: copy (R143). -/
  | ldReg (x y : Nibble)
  /-- `OR Vx, Vy`, `8xy1` (R144). -/
  | orReg (x y : Nibble)
  /-- `AND Vx, Vy`, `8xy2` (R145). -/
  | andReg (x y : Nibble)
  /-- `XOR Vx, Vy`, `8xy3` (R146). -/
  | xorReg (x y : Nibble)
  /-- `ADD Vx, Vy`, `8xy4`: add, VF the carry (R147). -/
  | addReg (x y : Nibble)
  /-- `SUB Vx, Vy`, `8xy5`: subtract, VF no borrow (R148). -/
  | subReg (x y : Nibble)
  /-- `SHR Vx`, `8xy6`: shift right in place; the y field is unused (R149). -/
  | shr (x ign : Nibble)
  /-- `SUBN Vx, Vy`, `8xy7`: reverse subtract (R150). -/
  | subnReg (x y : Nibble)
  /-- `SHL Vx`, `8xyE`: shift left in place; the y field is unused (R151). -/
  | shl (x ign : Nibble)
  /-- `SNE Vx, Vy`, `9xy-`: skip if not equal (R126). -/
  | sneReg (x y ign : Nibble)
  /-- `LD I, nnn`, `Annn` (R170). -/
  | ldI (nnn : Addr)
  /-- `JP V0, nnn`, `Bnnn`: jump with offset (R127). -/
  | jpV0 (nnn : Addr)
  /-- `RND Vx, kk`, `Cxkk`: random byte, masked (R154). -/
  | rnd (x : Nibble) (kk : Byte)
  /-- `DRW Vx, Vy, n`, `Dxyn`: draw a sprite (R191). -/
  | drw (x y n : Nibble)
  /-- `SKP Vx`, `Ex9E`: skip if the key is pressed (R200). -/
  | skp (x : Nibble)
  /-- `SKNP Vx`, `ExA1`: skip if the key is not pressed (R201). -/
  | sknp (x : Nibble)
  /-- `LD Vx, DT`, `Fx07`: read the delay timer (R202). -/
  | ldVxDt (x : Nibble)
  /-- `LD DT, Vx`, `Fx15`: write the delay timer (R203). -/
  | ldDtVx (x : Nibble)
  /-- `LD ST, Vx`, `Fx18`: write the sound timer (R206). -/
  | ldStVx (x : Nibble)
  /-- `LD Vx, K`, `Fx0A`: wait for a key (R204). -/
  | ldVxK (x : Nibble)
  /-- `ADD I, Vx`, `Fx1E` (R171). -/
  | addI (x : Nibble)
  /-- `LD F, Vx`, `Fx29`: address of a font glyph (R172). -/
  | ldF (x : Nibble)
  /-- `LD B, Vx`, `Fx33`: store the decimal digits (R173). -/
  | ldB (x : Nibble)
  /-- `LD [I], Vx`, `Fx55`: store V0..Vx (R175). -/
  | ldMemVx (x : Nibble)
  /-- `LD Vx, [I]`, `Fx65`: load V0..Vx (R176). -/
  | ldVxMem (x : Nibble)
  deriving DecidableEq, Repr

end Sys2Proof
end

