-- ==== Sys2Proof/Decode.lean ====
section
/-! DEFINITION. The decoder, total on every word (`30_encoding.md` R71, R87), the encoder, and the opcode map (R77). -/

namespace Sys2Proof

/-- Bits 15..12, the opcode class (`30_encoding.md` R71). -/
def fieldClass (w : Word) : Nibble := w.extractLsb' 12 4
/-- Bits 11..8, the register number `x` (R71). -/
def fieldX (w : Word) : Nibble := w.extractLsb' 8 4
/-- Bits 7..4, the register number `y` (R71). -/
def fieldY (w : Word) : Nibble := w.extractLsb' 4 4
/-- Bits 3..0, the immediate nibble `n` (R71). -/
def fieldN (w : Word) : Nibble := w.extractLsb' 0 4
/-- Bits 7..0, the immediate byte `kk` (R71). -/
def fieldKK (w : Word) : Byte := w.extractLsb' 0 8
/-- Bits 11..0, the address `nnn` (R71). -/
def fieldNNN (w : Word) : Addr := w.extractLsb' 0 12

/-- What the decoder answers: an instruction, or the word named as unknown (`30_encoding.md` R87: "`Unknown(word)` is a
result of decoding"). -/
inductive Decoded where
  /-- The word is this instruction. -/
  | insn (i : Instr)
  /-- The word matches no row of the opcode map (R84). -/
  | unknown (word : Word)
  deriving DecidableEq, Repr

/-- Class 0, second key the low byte (`30_encoding.md` R75, R80). -/
def decodeClass0 (w : Word) : Decoded :=
  if fieldKK w = 0xE0#8 then .insn (.cls (fieldX w))
  else if fieldKK w = 0xEE#8 then .insn (.ret (fieldX w))
  else .unknown w

/-- Class 8, second key the low nibble (`30_encoding.md` R75, R81). -/
def decodeClass8 (w : Word) : Decoded :=
  if fieldN w = 0x0#4 then .insn (.ldReg (fieldX w) (fieldY w))
  else if fieldN w = 0x1#4 then .insn (.orReg (fieldX w) (fieldY w))
  else if fieldN w = 0x2#4 then .insn (.andReg (fieldX w) (fieldY w))
  else if fieldN w = 0x3#4 then .insn (.xorReg (fieldX w) (fieldY w))
  else if fieldN w = 0x4#4 then .insn (.addReg (fieldX w) (fieldY w))
  else if fieldN w = 0x5#4 then .insn (.subReg (fieldX w) (fieldY w))
  else if fieldN w = 0x6#4 then .insn (.shr (fieldX w) (fieldY w))
  else if fieldN w = 0x7#4 then .insn (.subnReg (fieldX w) (fieldY w))
  else if fieldN w = 0xE#4 then .insn (.shl (fieldX w) (fieldY w))
  else .unknown w

/-- Class E, second key the low byte (`30_encoding.md` R75, R82). -/
def decodeClassE (w : Word) : Decoded :=
  if fieldKK w = 0x9E#8 then .insn (.skp (fieldX w))
  else if fieldKK w = 0xA1#8 then .insn (.sknp (fieldX w))
  else .unknown w

/-- Class F, second key the low byte (`30_encoding.md` R75, R83). -/
def decodeClassF (w : Word) : Decoded :=
  if fieldKK w = 0x07#8 then .insn (.ldVxDt (fieldX w))
  else if fieldKK w = 0x0A#8 then .insn (.ldVxK (fieldX w))
  else if fieldKK w = 0x15#8 then .insn (.ldDtVx (fieldX w))
  else if fieldKK w = 0x18#8 then .insn (.ldStVx (fieldX w))
  else if fieldKK w = 0x1E#8 then .insn (.addI (fieldX w))
  else if fieldKK w = 0x29#8 then .insn (.ldF (fieldX w))
  else if fieldKK w = 0x33#8 then .insn (.ldB (fieldX w))
  else if fieldKK w = 0x55#8 then .insn (.ldMemVx (fieldX w))
  else if fieldKK w = 0x65#8 then .insn (.ldVxMem (fieldX w))
  else .unknown w

/-- The decoder (`30_encoding.md` R74, R75, R87): the class selects the instruction, and classes 0, 8, E and F look at a
second key. The opcode numbers are the customary ones the spec supplies (R77, R79, D1, log 1). -/
def decode (w : Word) : Decoded :=
  if fieldClass w = 0x0#4 then decodeClass0 w
  else if fieldClass w = 0x1#4 then .insn (.jp (fieldNNN w))
  else if fieldClass w = 0x2#4 then .insn (.call (fieldNNN w))
  else if fieldClass w = 0x3#4 then .insn (.seImm (fieldX w) (fieldKK w))
  else if fieldClass w = 0x4#4 then .insn (.sneImm (fieldX w) (fieldKK w))
  else if fieldClass w = 0x5#4 then .insn (.seReg (fieldX w) (fieldY w) (fieldN w))
  else if fieldClass w = 0x6#4 then .insn (.ldImm (fieldX w) (fieldKK w))
  else if fieldClass w = 0x7#4 then .insn (.addImm (fieldX w) (fieldKK w))
  else if fieldClass w = 0x8#4 then decodeClass8 w
  else if fieldClass w = 0x9#4 then .insn (.sneReg (fieldX w) (fieldY w) (fieldN w))
  else if fieldClass w = 0xA#4 then .insn (.ldI (fieldNNN w))
  else if fieldClass w = 0xB#4 then .insn (.jpV0 (fieldNNN w))
  else if fieldClass w = 0xC#4 then .insn (.rnd (fieldX w) (fieldKK w))
  else if fieldClass w = 0xD#4 then .insn (.drw (fieldX w) (fieldY w) (fieldN w))
  else if fieldClass w = 0xE#4 then decodeClassE w
  else decodeClassF w

/-- The word of two consecutive memory bytes, high byte first (`20_memory.md` R52). -/
def wordOfBytes (hi lo : Byte) : Word := hi ++ lo

/-- The high byte of a word, stored at the lower address (`20_memory.md` R52). -/
def highByte (w : Word) : Byte := w.extractLsb' 8 8
/-- The low byte of a word, stored at the higher address (`20_memory.md` R52). -/
def lowByte (w : Word) : Byte := w.extractLsb' 0 8

/-- The bytes of a table instruction as the core stores them. The table numbers the 16 bits of the word as the spec does
(bit 0 least significant, `00_scope.md` R7); bits at `nbits` and above are zero. -/
def tableWord (nbits w : Nat) : Word := BitVec.ofNat 16 (w % 2 ^ nbits)

/-- The instruction the decoder reads from the stored bytes of a word given in the opcode table's bit numbering. -/
def decodeTableWord (nbits w : Nat) : Option Instr :=
  match decode (wordOfBytes (highByte (tableWord nbits w)) (lowByte (tableWord nbits w))) with
  | .insn i => some i
  | .unknown _ => none

/-- The encoder: the word of an instruction, nibble by nibble from the patterns of `30_encoding.md` R77. -/
def encode : Instr → Word
  | .cls ign => 0x0#4 ++ ign ++ 0xE0#8
  | .ret ign => 0x0#4 ++ ign ++ 0xEE#8
  | .jp nnn => 0x1#4 ++ nnn
  | .call nnn => 0x2#4 ++ nnn
  | .seImm x kk => 0x3#4 ++ x ++ kk
  | .sneImm x kk => 0x4#4 ++ x ++ kk
  | .seReg x y ign => 0x5#4 ++ x ++ y ++ ign
  | .ldImm x kk => 0x6#4 ++ x ++ kk
  | .addImm x kk => 0x7#4 ++ x ++ kk
  | .ldReg x y => 0x8#4 ++ x ++ y ++ 0x0#4
  | .orReg x y => 0x8#4 ++ x ++ y ++ 0x1#4
  | .andReg x y => 0x8#4 ++ x ++ y ++ 0x2#4
  | .xorReg x y => 0x8#4 ++ x ++ y ++ 0x3#4
  | .addReg x y => 0x8#4 ++ x ++ y ++ 0x4#4
  | .subReg x y => 0x8#4 ++ x ++ y ++ 0x5#4
  | .shr x ign => 0x8#4 ++ x ++ ign ++ 0x6#4
  | .subnReg x y => 0x8#4 ++ x ++ y ++ 0x7#4
  | .shl x ign => 0x8#4 ++ x ++ ign ++ 0xE#4
  | .sneReg x y ign => 0x9#4 ++ x ++ y ++ ign
  | .ldI nnn => 0xA#4 ++ nnn
  | .jpV0 nnn => 0xB#4 ++ nnn
  | .rnd x kk => 0xC#4 ++ x ++ kk
  | .drw x y n => 0xD#4 ++ x ++ y ++ n
  | .skp x => 0xE#4 ++ x ++ 0x9E#8
  | .sknp x => 0xE#4 ++ x ++ 0xA1#8
  | .ldVxDt x => 0xF#4 ++ x ++ 0x07#8
  | .ldDtVx x => 0xF#4 ++ x ++ 0x15#8
  | .ldStVx x => 0xF#4 ++ x ++ 0x18#8
  | .ldVxK x => 0xF#4 ++ x ++ 0x0A#8
  | .addI x => 0xF#4 ++ x ++ 0x1E#8
  | .ldF x => 0xF#4 ++ x ++ 0x29#8
  | .ldB x => 0xF#4 ++ x ++ 0x33#8
  | .ldMemVx x => 0xF#4 ++ x ++ 0x55#8
  | .ldVxMem x => 0xF#4 ++ x ++ 0x65#8

/-- The mask and the match a decoder tests for the row of an instruction (`30_encoding.md` R77): `word AND mask = match`. -/
def opcodeRow : Instr → Word × Word
  | .cls _ => (0xF0FF, 0x00E0)
  | .ret _ => (0xF0FF, 0x00EE)
  | .jp _ => (0xF000, 0x1000)
  | .call _ => (0xF000, 0x2000)
  | .seImm _ _ => (0xF000, 0x3000)
  | .sneImm _ _ => (0xF000, 0x4000)
  | .seReg _ _ _ => (0xF000, 0x5000)
  | .ldImm _ _ => (0xF000, 0x6000)
  | .addImm _ _ => (0xF000, 0x7000)
  | .ldReg _ _ => (0xF00F, 0x8000)
  | .orReg _ _ => (0xF00F, 0x8001)
  | .andReg _ _ => (0xF00F, 0x8002)
  | .xorReg _ _ => (0xF00F, 0x8003)
  | .addReg _ _ => (0xF00F, 0x8004)
  | .subReg _ _ => (0xF00F, 0x8005)
  | .shr _ _ => (0xF00F, 0x8006)
  | .subnReg _ _ => (0xF00F, 0x8007)
  | .shl _ _ => (0xF00F, 0x800E)
  | .sneReg _ _ _ => (0xF000, 0x9000)
  | .ldI _ => (0xF000, 0xA000)
  | .jpV0 _ => (0xF000, 0xB000)
  | .rnd _ _ => (0xF000, 0xC000)
  | .drw _ _ _ => (0xF000, 0xD000)
  | .skp _ => (0xF0FF, 0xE09E)
  | .sknp _ => (0xF0FF, 0xE0A1)
  | .ldVxDt _ => (0xF0FF, 0xF007)
  | .ldDtVx _ => (0xF0FF, 0xF015)
  | .ldStVx _ => (0xF0FF, 0xF018)
  | .ldVxK _ => (0xF0FF, 0xF00A)
  | .addI _ => (0xF0FF, 0xF01E)
  | .ldF _ => (0xF0FF, 0xF029)
  | .ldB _ => (0xF0FF, 0xF033)
  | .ldMemVx _ => (0xF0FF, 0xF055)
  | .ldVxMem _ => (0xF0FF, 0xF065)

end Sys2Proof
end

