-- ==== Sys2Proof/Machine/HostOp.lean ====
section
/-! DEFINITION. The operations of the host, and what the host does once its schedule is used up. -/

namespace Sys2Proof.Machine

/-- An operation the host performs on the core (`00_scope.md` R9, `46_host_operations.md` R220). -/
inductive HostOp where
  /-- RESET (`70_reset_and_hazards.md` R280). -/
  | reset
  /-- LOAD of a byte sequence (`46_host_operations.md` R221). -/
  | load (bytes : List Byte)
  /-- CYCLE (`40_cycle.md` R100). -/
  | cycle
  /-- TICK (`60_exceptions.md` R253). -/
  | tick
  /-- KEY_SET of a key index, any integer (`46_host_operations.md` R224). -/
  | keySet (k : Int)
  /-- KEY_CLEAR of a key index, any integer (`46_host_operations.md` R225). -/
  | keyClear (k : Int)
  /-- RENDER_READ (`46_host_operations.md` R226). -/
  | renderRead
  deriving DecidableEq, Repr, Inhabited

/-- What the host does after the operations of its schedule, for ever (`70_reset_and_hazards.md` R290, log 7). -/
inductive HostRest where
  /-- The operations of the list over and over, the first again after the last; CYCLE alone when the list is empty. -/
  | loop (ops : List HostOp)
  /-- Any infinite sequence of operations: the free values `Config.hostOp` from number `n` on. -/
  | free (n : Nat)
  deriving DecidableEq, Repr

end Sys2Proof.Machine
end

