-- ==== Sys2Proof/Config.lean ====
section
/-! DEFINITION. The values the spec leaves open: free values with no body, so that nothing can be proved of them. -/

namespace Sys2Proof

/-- The byte RND draws as the `k`-th free value of the session (`42_alu.md` R155, D17): a free input of the cycle.
It has no body. UNVERIFIED by design, safe: every claim holds for all 256 values (log 5). -/
opaque Config.drawnByte : Nat → Byte

/-- Which of several latched keys a key wait returns, as the `k`-th free value of the session: the position in the list
of latched keys, taken modulo its length (`45_keypad_timers.md` R204, parameter KEYSEL, D11, U5). It has no body.
Safe: every claim holds for every choice among the latched keys (log 6). -/
opaque Config.keyPick : Nat → Nat

/-- The `n`-th operation of a host whose operations are free (`70_reset_and_hazards.md` R290, U8). It has no body, so every
claim about such a host holds for every infinite interleaving of the seven operations. Safe (log 7). -/
opaque Config.hostOp : Nat → Machine.HostOp

end Sys2Proof
end

