-- ==== Sys2Proof/Machine/Font.lean ====
section
/-! DEFINITION. The font: the parameter FONT of the spec and its default (`20_memory.md` R58, `00_scope.md` R6, D15). -/

namespace Sys2Proof.Machine

/-- FONT[5..79], the 75 bytes of glyphs 1 to F, which the spec leaves open as a parameter of the model (`00_scope.md` R6).
A machine carries its own (`State.font`), and every claim over all states holds for every value of it (log 3). -/
abbrev Font := Vector Byte 75

/-- FONT[0..4], the glyph 0 of every font, fixed by the source (`20_memory.md` R58). -/
def glyphZero : List Byte := [0xF0, 0x90, 0x90, 0x90, 0xF0]

/-- The default of the parameter FONT: glyphs 1 to F of the table of `20_memory.md` R58, PRESUMED (from general knowledge,
D15), log 3. -/
def defaultFont : Font :=
  #v[0x20, 0x60, 0x20, 0x20, 0x70,  -- 1
     0xF0, 0x10, 0xF0, 0x80, 0xF0,  -- 2
     0xF0, 0x10, 0xF0, 0x10, 0xF0,  -- 3
     0x90, 0x90, 0xF0, 0x10, 0x10,  -- 4
     0xF0, 0x80, 0xF0, 0x10, 0xF0,  -- 5
     0xF0, 0x80, 0xF0, 0x90, 0xF0,  -- 6
     0xF0, 0x10, 0x20, 0x40, 0x40,  -- 7
     0xF0, 0x90, 0xF0, 0x90, 0xF0,  -- 8
     0xF0, 0x90, 0xF0, 0x10, 0xF0,  -- 9
     0xF0, 0x90, 0xF0, 0x90, 0x90,  -- A
     0xE0, 0x90, 0xE0, 0x90, 0xE0,  -- B
     0xF0, 0x80, 0x80, 0x80, 0xF0,  -- C
     0xE0, 0x90, 0x90, 0x90, 0xE0,  -- D
     0xF0, 0x80, 0xF0, 0x80, 0xF0,  -- E
     0xF0, 0x80, 0xF0, 0x80, 0x80]  -- F

/-- The 80 bytes RESET places at 0x000..0x04F, glyph d at `5*d` (`20_memory.md` R58). -/
def fontBytes (font : Font) : List Byte := glyphZero ++ font.toList

end Sys2Proof.Machine
end

