-- ==== Sys2Proof/Machine/State.lean ====
section
/-! DEFINITION. The machine's state as plain data, its reset value, and the reasons a step can stop. -/

namespace Sys2Proof.Machine

/-- Memory (`10_state.md` R41): the cells that differ from the reset contents of the default font, addresses strictly rising. The canonical
form is `Memory.wf`, the reading of an unlisted address `resetByte`, both in Ops.lean. -/
abbrev Memory := List Host.Cell

/-- The framebuffer (`10_state.md` R37): 32 rows, top row first, of 64 one-bit pixels; column x is bit x of its row. The
linear index `x + y*64` of the spec is `getPixel` and `setPixel` of Ops.lean (log 16). -/
abbrev FrameBuffer := Vector (BitVec 64) 32

/-- The framebuffer with every pixel 0. -/
def blankScreen : FrameBuffer := Vector.replicate 32 0

/-- What an operation gives back to the host, other than a fault report (`46_host_operations.md` R220, R227). -/
inductive Reply where
  /-- No output: RESET, an accepted LOAD, KEY_SET or KEY_CLEAR, a CYCLE that completes. -/
  | nothing
  /-- TICK's output `sound_edge` (`60_exceptions.md` R254). -/
  | soundEdge (edge : Bool)
  /-- RENDER_READ with a redraw pending: a copy of the framebuffer (R226). -/
  | frame (fb : FrameBuffer)
  /-- RENDER_READ with no redraw pending: "no frame" (R226). -/
  | noFrame
  /-- LOAD rejected: the image is `length` bytes, more than 0xE00 (R222). -/
  | programTooLarge (length : Nat)
  /-- KEY_SET or KEY_CLEAR rejected: the index is not in 0..15 (R224, R225). -/
  | hostKeyIndexOutOfRange (k : Int)
  deriving DecidableEq, Repr

/-- The six faults of a CYCLE with the information they report (`60_exceptions.md` R241). Each ends the cycle and leaves
the state as it was (R247, D5, log 9). Raising one where the real block goes on is SAFE: the run gets no meaning. -/
inductive Fault where
  /-- Raised by the dispatch of any cycle whose word matches no instruction (R242). Safe: the source's own error. -/
  | unknownInstruction (word : Word) (thisPc : Word)
  /-- Raised by `CALL` when the stack holds 16 entries (R245). Safe: the source's own error. -/
  | stackOverflow (thisPc : Word)
  /-- Raised by `RET` when the stack is empty (R245). Safe: the source's own error. -/
  | stackUnderflow (thisPc : Word)
  /-- Raised by the fetch of any cycle that begins with `pc > 0xFFE` (R243, D8). Safe (log 10). -/
  | fetchAddressOutOfRange (thisPc : Word)
  /-- Raised by `DRW`, `LD B`, `LD [I]` and `LD Vx, [I]` when the last byte touched lies above 0xFFF (R244, D7). Safe (log 10). -/
  | dataAddressOutOfRange (address : Nat) (thisPc : Word)
  /-- Raised by `SKP` and `SKNP` when `V[x] > 15` (R246, D10). Safe (log 11). -/
  | keyIndexOutOfRange (key : Byte) (thisPc : Word)
  deriving DecidableEq, Repr

/-- The reasons to refuse an instruction. Every instruction has its meaning, so none is raised. -/
inductive Refusal where
  /-- Raised by an arm of `exec` whose instruction has no meaning yet; no arm raises it now. Safe: a refused run has no meaning. -/
  | notModelled (mnemonic : String)
  deriving DecidableEq, Repr

/-- The complete state (`10_state.md` R20), and five fields of the model's own: `draws`, `schedule`, `hostRest`,
`reply` and `font`. -/
structure State where
  /-- Memory, addresses 0x000..0xFFF (R41, `20_memory.md` R50). -/
  mem : Memory
  /-- The general registers V0..VF; VF is also the flag (R21, R22). -/
  v : Vector Byte 16
  /-- The index register I, its 12 significant bits (R25, R26). -/
  i : Addr
  /-- The program counter (R27). -/
  pc : Word
  /-- The call stack, newest entry first (R30). -/
  stack : List Word
  /-- The delay timer DT (R35). -/
  dt : Byte
  /-- The sound timer ST (R36). -/
  st : Byte
  /-- The framebuffer FB (R37). -/
  fb : FrameBuffer
  /-- The keypad latches KEY (R39). -/
  key : Vector Bool 16
  /-- The redraw-pending flag REDRAW (R40). -/
  redraw : Bool
  /-- The model's own: how many free values the session has taken (`42_alu.md` R155, log 5). -/
  draws : Nat
  /-- The model's own: the host operations that come next, first one first (`70_reset_and_hazards.md` R290, log 7). -/
  schedule : List HostOp
  /-- The model's own: the host operations after those of `schedule`, for ever (R290, log 7). -/
  hostRest : HostRest
  /-- The model's own: what the latest operation gave back to the host (`46_host_operations.md` R227, log 8). -/
  reply : Reply
  /-- The model's own: the parameter FONT[5..79] of this machine, which no operation changes (`00_scope.md` R6, log 3). -/
  font : Font
  deriving DecidableEq, Repr

/-- The outcome of a step, a cycle or an instruction of this machine. -/
abbrev Result := Host.Outcome State Fault Refusal

/-- The machine right after reset (`10_state.md` R46, `70_reset_and_hazards.md` R280): memory at its reset contents
(nothing listed), `pc` = 0x200, all else zero, false or empty. I, DT, ST and REDRAW are the spec's decision D14 (log 4);
`draws`, `schedule`, `hostRest` and `reply` are the model's own (log 5, 7, 8). The parameter FONT is at its default (log 3);
`State.powerOn` of HostOps.lean takes any other. -/
def State.reset : State where
  mem := []
  v := Vector.replicate 16 0
  i := 0
  pc := 0x200
  stack := []
  dt := 0
  st := 0
  fb := blankScreen
  key := Vector.replicate 16 false
  redraw := false
  draws := 0
  schedule := []
  hostRest := .loop []
  reply := .nothing
  font := defaultFont

end Sys2Proof.Machine
end

