-- ==== Sys2Proof/Machine/Ops.lean ====
section
/-! DEFINITION. The named operations over memory, registers, stack, framebuffer and faults (`00_scope.md` R8). -/

namespace Sys2Proof.Machine

/-! ## Memory -/

/-- The number of bytes of memory (`00_scope.md` R5, MEM_SIZE). -/
def memSize : Nat := 0x1000

/-- What an unlisted address reads as: the reset contents under the default font, that font at 0x000..0x04F and 0x00
elsewhere (`10_state.md` R46, `20_memory.md` R51, R58). RESET lists the bytes in which the machine's own font differs. -/
def resetByte (a : Nat) : Byte := (fontBytes defaultFont).getD a 0

/-- The canonical form of memory: addresses strictly rising and below `memSize`, no cell equal to its reset byte. -/
abbrev Memory.wf (m : Memory) : Prop :=
  m.Pairwise (fun c d => c.1 < d.1) ∧ ∀ c ∈ m, c.1 < memSize ∧ c.2 ≠ resetByte c.1

/-- MemRead (`00_scope.md` R8): the byte at an address. -/
def Memory.read (m : Memory) (a : Nat) : Byte :=
  match m with
  | [] => resetByte a
  | c :: rest => if c.1 = a then c.2 else Memory.read rest a

/-- A cell in front of a list, unless it equals the reset byte of its address. -/
def Memory.consCell (a : Nat) (b : Byte) (m : Memory) : Memory :=
  if b = resetByte a then m else (a, b) :: m

/-- Put a byte at an address, keeping the canonical form. -/
def Memory.put (m : Memory) (a : Nat) (b : Byte) : Memory :=
  match m with
  | [] => Memory.consCell a b []
  | c :: rest =>
    if a < c.1 then Memory.consCell a b (c :: rest)
    else if a = c.1 then Memory.consCell a b rest
    else c :: Memory.put rest a b

/-- MemWrite (`00_scope.md` R8), defined for 0..0xFFF only: no other address exists, and every caller checks its range
first (`43_index_memory.md` R174), so an address outside is left without a cell. -/
def Memory.write (m : Memory) (a : Nat) (b : Byte) : Memory :=
  if a < memSize then Memory.put m a b else m

/-- `count` bytes from `a` on, in ascending address order (`20_memory.md` R55). -/
def Memory.readBytes (m : Memory) (a : Nat) : Nat → List Byte
  | 0 => []
  | count + 1 => Memory.read m a :: Memory.readBytes m (a + 1) count

/-- Bytes stored from `a` on, in ascending address order (`20_memory.md` R55). -/
def Memory.writeBytes (m : Memory) (a : Nat) : List Byte → Memory
  | [] => m
  | b :: rest => Memory.writeBytes (Memory.write m a b) (a + 1) rest

/-! ## Registers -/

/-- The number of VF, the register that doubles as the flag (`10_state.md` R22). -/
def vf : Nibble := 0xF

/-- Read of a general register (`10_state.md` R21). -/
def State.getV (s : State) (r : Nibble) : Byte := s.v[r.toNat]'(r.isLt)

/-- Write of a general register (`10_state.md` R21). -/
def State.setV (s : State) (r : Nibble) (b : Byte) : State := { s with v := s.v.set r.toNat b r.isLt }

/-- Bytes written to consecutive registers from number `k` on, ascending (`43_index_memory.md` R176). -/
def loadRegisters (v : Vector Byte 16) (k : Nat) : List Byte → Vector Byte 16
  | [] => v
  | b :: rest => loadRegisters (v.setIfInBounds k b) (k + 1) rest

/-- Write of the index register (`10_state.md` R25). -/
def State.setI (s : State) (a : Addr) : State := { s with i := a }

/-- Write of the program counter (`10_state.md` R27). -/
def State.setPc (s : State) (a : Word) : State := { s with pc := a }

/-- The uniform pre-increment, and the further 2 of a taken skip (`40_cycle.md` R102). -/
def State.advance (s : State) : State := { s with pc := s.pc + 2 }

/-- A skip: a further 2 when the condition holds (`41_flow.md` R123). -/
def State.skipIf (s : State) (c : Bool) : State := if c then s.advance else s

/-- Write of the delay timer (`10_state.md` R35). -/
def State.setDt (s : State) (b : Byte) : State := { s with dt := b }

/-- Write of the sound timer (`10_state.md` R36). -/
def State.setSt (s : State) (b : Byte) : State := { s with st := b }

/-- Write of the whole memory. -/
def State.setMem (s : State) (m : Memory) : State := { s with mem := m }

/-- Write of the framebuffer, which always marks a redraw pending (`10_state.md` R40). -/
def State.setScreen (s : State) (f : FrameBuffer) : State := { s with fb := f, redraw := true }

/-- A free value has been taken (log 5, log 6). -/
def State.countDraw (s : State) : State := { s with draws := s.draws + 1 }

/-- What an operation gives back to the host (`46_host_operations.md` R227). -/
def State.setReply (s : State) (r : Reply) : State := { s with reply := r }

/-! ## Call stack -/

/-- The depth bound of the call stack (`00_scope.md` R5, STACK_DEPTH). -/
def stackDepth : Nat := 16

/-- `push(v)` (`10_state.md` R33): none when the stack already holds 16 entries. -/
def State.push (s : State) (w : Word) : Option State :=
  if s.stack.length < stackDepth then some { s with stack := w :: s.stack } else none

/-- `pop()` (`10_state.md` R34): the newest entry and the state without it; none when the stack is empty. -/
def State.pop (s : State) : Option (Word × State) :=
  match s.stack with
  | [] => none
  | w :: rest => some (w, { s with stack := rest })

/-! ## Framebuffer -/

/-- The columns and rows of the framebuffer (`00_scope.md` R5, FB_W and FB_H). -/
def screenWidth : Nat := 64
def screenHeight : Nat := 32

/-- One pixel of a row. -/
def setBit (row : BitVec 64) (x : Nat) (b : Bool) : BitVec 64 :=
  (row &&& ~~~(BitVec.twoPow 64 x)) ||| (if b then BitVec.twoPow 64 x else 0)

/-- `FB[k]`, k = x + y*64 (`00_scope.md` R8, `10_state.md` R37). -/
def getPixel (f : FrameBuffer) (k : Nat) : Bool := (f[k / screenWidth]?.getD 0).getLsbD (k % screenWidth)

/-- `FB[k] <- b` (`00_scope.md` R8). -/
def setPixel (f : FrameBuffer) (k : Nat) (b : Bool) : FrameBuffer :=
  f.setIfInBounds (k / screenWidth) (setBit (f[k / screenWidth]?.getD 0) (k % screenWidth) b)

/-! ## Keypad -/

/-- The latched keys in ascending order (`45_keypad_timers.md` R204, the set P). -/
def State.latchedKeys (s : State) : List (Fin 16) := (List.finRange 16).filter (fun k => s.key[k])

/-- The key number as a register value, 0..15 (`45_keypad_timers.md` R204). -/
def keyByte (k : Fin 16) : Byte := BitVec.ofNat 8 k.val

/-- KEYSEL when several keys are latched (`45_keypad_timers.md` R204): one of them, which one is a free value (log 6). -/
def pickKey (n : Nat) (k : Fin 16) (more : List (Fin 16)) : Fin 16 :=
  (k :: more).getD (Config.keyPick n % (more.length + 1)) k

/-! ## Faults -/

/-- Ending a cycle with a fault: the one thing this core has in place of taking an exception. The report goes to the
caller and no state changes; there is no handler, no saved register and no return (`60_exceptions.md` R247, R251, R252). -/
def raise (f : Fault) : Result := .fault f

/-- The spec's labels of the faults (`60_exceptions.md` R241); no program can observe them. -/
def Fault.code : Fault → Nat
  | .unknownInstruction _ _ => 1
  | .stackOverflow _ => 2
  | .stackUnderflow _ => 3
  | .fetchAddressOutOfRange _ => 4
  | .dataAddressOutOfRange _ _ => 5
  | .keyIndexOutOfRange _ _ => 6

end Sys2Proof.Machine
end

