-- ==== Sys2Proof/Machine/Flags.lean ====
section
/-! DEFINITION. The flag computations of the seven instructions that write VF as a flag (`10_state.md` R22). -/

namespace Sys2Proof.Machine

/-- A flag as a register value: 0 or 1 (`10_state.md` R22). -/
def flagByte (f : Bool) : Byte := if f then 1 else 0

/-- The carry of `a + b`: the unclamped sum exceeds 255 (`42_alu.md` R147). -/
def carryOut (a b : Byte) : Bool := decide (255 < a.toNat + b.toNat)

/-- No borrow is needed for `a - b`: `a >= b` (`42_alu.md` R148, R150). -/
def noBorrow (a b : Byte) : Bool := decide (b ≤ a)

/-- Bit 0, shifted out to the right (`42_alu.md` R149). -/
def lowBit (a : Byte) : Bool := a.getLsbD 0

/-- Bit 7, shifted out to the left (`42_alu.md` R151). -/
def highBit (a : Byte) : Bool := a.getLsbD 7

/-- The sum `I + V[x]` exceeds 0xFFF (`43_index_memory.md` R171). -/
def indexOverflow (i : Addr) (b : Byte) : Bool := decide (0xFFF < i.toNat + b.toNat)

/-- VF written as a flag, always, to 0 or to 1 (`10_state.md` R22). -/
def State.setFlag (s : State) (f : Bool) : State := s.setV vf (flagByte f)

/-- A result and then the flag: VF is the later of the two writes, so with x = 0xF the flag stays and the result is lost
(`10_state.md` R23, `40_cycle.md` R106, D12, log 12). -/
def State.setResultAndFlag (s : State) (x : Nibble) (r : Byte) (f : Bool) : State := (s.setV x r).setFlag f

end Sys2Proof.Machine
end

