-- ==== Sys2Proof/Machine/Alu.lean ====
section
/-! DEFINITION. Register load, arithmetic, logic, shift and random (`42_alu.md`). Every meaning is given the state when
the cycle began; the operands are read from it before anything is written (R142, `40_cycle.md` R106). -/

namespace Sys2Proof.Machine

/-- `LD Vx, kk` (R140). -/
def execLdImm (x : Nibble) (kk : Byte) (s : State) : Result := .next (s.advance.setV x kk)

/-- `ADD Vx, kk` (R141): wraps, VF is not touched as a flag. -/
def execAddImm (x : Nibble) (kk : Byte) (s : State) : Result := .next (s.advance.setV x (s.getV x + kk))

/-- `LD Vx, Vy` (R143). -/
def execLdReg (x y : Nibble) (s : State) : Result := .next (s.advance.setV x (s.getV y))

/-- `OR Vx, Vy` (R144): no flag. -/
def execOrReg (x y : Nibble) (s : State) : Result := .next (s.advance.setV x (s.getV x ||| s.getV y))

/-- `AND Vx, Vy` (R145): no flag. -/
def execAndReg (x y : Nibble) (s : State) : Result := .next (s.advance.setV x (s.getV x &&& s.getV y))

/-- `XOR Vx, Vy` (R146): no flag. -/
def execXorReg (x y : Nibble) (s : State) : Result := .next (s.advance.setV x (s.getV x ^^^ s.getV y))

/-- `ADD Vx, Vy` (R147): VF the carry. -/
def execAddReg (x y : Nibble) (s : State) : Result :=
  .next (s.advance.setResultAndFlag x (s.getV x + s.getV y) (carryOut (s.getV x) (s.getV y)))

/-- `SUB Vx, Vy` (R148): VF no borrow. -/
def execSubReg (x y : Nibble) (s : State) : Result :=
  .next (s.advance.setResultAndFlag x (s.getV x - s.getV y) (noBorrow (s.getV x) (s.getV y)))

/-- `SHR Vx` (R149): Vx in place, VF the old bit 0. -/
def execShr (x : Nibble) (s : State) : Result :=
  .next (s.advance.setResultAndFlag x (s.getV x >>> 1) (lowBit (s.getV x)))

/-- `SUBN Vx, Vy` (R150): Vy - Vx, VF no borrow. -/
def execSubnReg (x y : Nibble) (s : State) : Result :=
  .next (s.advance.setResultAndFlag x (s.getV y - s.getV x) (noBorrow (s.getV y) (s.getV x)))

/-- `SHL Vx` (R151): Vx in place, VF the old bit 7. -/
def execShl (x : Nibble) (s : State) : Result :=
  .next (s.advance.setResultAndFlag x (s.getV x <<< 1) (highBit (s.getV x)))

/-- `RND Vx, kk` (R154): a drawn byte, masked. The byte is a free value (R155, D17, log 5). -/
def execRnd (x : Nibble) (kk : Byte) (s : State) : Result :=
  .next (s.advance.countDraw.setV x (Config.drawnByte s.draws &&& kk))

end Sys2Proof.Machine
end

