-- ==== Sys2Proof/Machine/Operands.lean ====
section
/-! DEFINITION. The operand forms: jump targets, the font address, memory at I, a key number, decimal digits. -/

namespace Sys2Proof.Machine

/-- An address operand as a program counter value (`41_flow.md` R121, R122): not masked, not checked. -/
def jumpTarget (nnn : Addr) : Word := nnn.setWidth 16

/-- `nnn + V[0]`, a value 0..0x10FE that is not masked to 12 bits (`41_flow.md` R127). -/
def offsetTarget (nnn : Addr) (v0 : Byte) : Word := nnn.setWidth 16 + v0.setWidth 16

/-- `5 * (V[x] AND 0x0F)`, the address of a font glyph (`43_index_memory.md` R172). -/
def fontAddress (b : Byte) : Addr := 5 * (b &&& 0x0F).setWidth 12

/-- The three decimal digits of a byte, most significant first (`43_index_memory.md` R173). -/
def decimalDigits (b : Byte) : List Byte := [b / 100, (b / 10) % 10, b % 10]

/-- The effective address of the first byte of the one memory operand form, "at `I`, ascending" (`43_index_memory.md`, R174). -/
def dataAddress (s : State) : Nat := s.i.toNat

/-- The range check before any byte is touched (`43_index_memory.md` R174): the fault when the last of `count >= 1` bytes
from `I` on lies above 0xFFF. -/
def dataRangeFault (s : State) (count : Nat) : Option Fault :=
  if 1 ≤ count ∧ 0xFFF < dataAddress s + count - 1 then
    some (.dataAddressOutOfRange (dataAddress s + count - 1) s.pc)
  else none

/-- `count` bytes read at `I`, or the fault of R174. `s` is the state when the cycle began, so `s.pc` is `this_pc`. -/
def readAtI (s : State) (count : Nat) : Except Fault (List Byte) :=
  match dataRangeFault s count with
  | some f => .error f
  | none => .ok (Memory.readBytes s.mem (dataAddress s) count)

/-- Memory with bytes stored at `I`, or the fault of R174 with no byte written. -/
def writeAtI (s : State) (bytes : List Byte) : Except Fault Memory :=
  match dataRangeFault s bytes.length with
  | some f => .error f
  | none => .ok (Memory.writeBytes s.mem (dataAddress s) bytes)

/-- V0..Vx, ascending, inclusive of Vx (`43_index_memory.md` R175). -/
def registersUpTo (s : State) (x : Nibble) : List Byte := s.v.toList.take (x.toNat + 1)

/-- `V[x]` as a key number (`45_keypad_timers.md` R200): a fault, not a masked value, when it is above 15 (D10, log 11). -/
def keyOperand (s : State) (x : Nibble) : Except Fault (Fin 16) :=
  if h : (s.getV x).toNat < 16 then .ok ⟨(s.getV x).toNat, h⟩
  else .error (.keyIndexOutOfRange (s.getV x) s.pc)

end Sys2Proof.Machine
end

