-- ==== Sys2Proof/Machine/Display.lean ====
section
/-! DEFINITION. The display instructions (`44_display.md`) and the walk over a sprite's rows and columns. -/

namespace Sys2Proof.Machine

/-- The framebuffer during a draw, and whether a pixel has gone from 1 to 0 so far. -/
abbrev Drawing := FrameBuffer × Bool

/-- One pixel of a sprite (`44_display.md` R191): outside the grid nothing is read or written; inside, the source bit is
XORed in, and a 1 under a 1 is a collision. -/
def drawPixel (d : Drawing) (px py : Nat) (bit : Bool) : Drawing :=
  if px < screenWidth ∧ py < screenHeight then
    (setPixel d.1 (px + py * screenWidth) (getPixel d.1 (px + py * screenWidth) ^^ bit),
      d.2 || (getPixel d.1 (px + py * screenWidth) && bit))
  else d

/-- Columns `c`, `c+1`, ... of one row: column c takes bit 7-c of the row byte (`44_display.md` R191). -/
def drawColumns (x0 py : Nat) (row : Byte) : List Nat → Drawing → Drawing
  | [], d => d
  | c :: rest, d => drawColumns x0 py row rest (drawPixel d (x0 + c) py (row.getLsbD (7 - c)))

/-- The eight columns of a row (`44_display.md` R191). -/
def spriteColumns : List Nat := [0, 1, 2, 3, 4, 5, 6, 7]

/-- The rows of a sprite, top row first, the first at row `py` of the grid (`44_display.md` R191). -/
def drawRows (x0 : Nat) : Nat → List Byte → Drawing → Drawing
  | _, [], d => d
  | py, row :: rest, d => drawRows x0 (py + 1) rest (drawColumns x0 py row spriteColumns d)

/-- `CLS` (R190). -/
def execCls (s : State) : Result := .next (s.advance.setScreen blankScreen)

/-- `DRW Vx, Vy, n` (R191): the start coordinates are the register values as they are (D13, log 13), read before VF is
written. -/
def execDrw (x y n : Nibble) (s : State) : Result :=
  match readAtI s n.toNat with
  | .error f => raise f
  | .ok rows =>
    let d := drawRows (s.getV x).toNat (s.getV y).toNat rows (s.fb, false)
    .next ((s.advance.setScreen d.1).setFlag d.2)

end Sys2Proof.Machine
end

