-- ==== Sys2Proof/Machine/Flow.lean ====
section
/-! DEFINITION. Control transfer (`41_flow.md`). Every meaning is given the state when the cycle began (`s.pc` is
`this_pc`) and starts from `s.advance`, whose pc is `next_pc` (`40_cycle.md` R102, log 24). -/

namespace Sys2Proof.Machine

/-- `RET` (R120): pc := pop(stack), the popped value neither masked nor checked. -/
def execRet (s : State) : Result :=
  match s.advance.pop with
  | none => raise (.stackUnderflow s.pc)
  | some (w, t) => .next (t.setPc w)

/-- `JP nnn` (R121). -/
def execJp (nnn : Addr) (s : State) : Result := .next (s.setPc (jumpTarget nnn))

/-- `CALL nnn` (R122): `next_pc` is pushed. -/
def execCall (nnn : Addr) (s : State) : Result :=
  match s.advance.push s.advance.pc with
  | none => raise (.stackOverflow s.pc)
  | some t => .next (t.setPc (jumpTarget nnn))

/-- `SE Vx, kk` (R123). -/
def execSeImm (x : Nibble) (kk : Byte) (s : State) : Result := .next (s.advance.skipIf (s.getV x == kk))

/-- `SNE Vx, kk` (R124). -/
def execSneImm (x : Nibble) (kk : Byte) (s : State) : Result := .next (s.advance.skipIf (s.getV x != kk))

/-- `SE Vx, Vy` (R125). -/
def execSeReg (x y : Nibble) (s : State) : Result := .next (s.advance.skipIf (s.getV x == s.getV y))

/-- `SNE Vx, Vy` (R126). -/
def execSneReg (x y : Nibble) (s : State) : Result := .next (s.advance.skipIf (s.getV x != s.getV y))

/-- `JP V0, nnn` (R127): always V0, no wrap. -/
def execJpV0 (nnn : Addr) (s : State) : Result := .next (s.setPc (offsetTarget nnn (s.getV 0)))

end Sys2Proof.Machine
end

