-- ==== Sys2Proof/Machine/IndexMemory.lean ====
section
/-! DEFINITION. The index register and memory (`43_index_memory.md`). None of these advances I (R174). -/

namespace Sys2Proof.Machine

/-- `LD I, nnn` (R170). -/
def execLdI (nnn : Addr) (s : State) : Result := .next (s.advance.setI nnn)

/-- `ADD I, Vx` (R171): I masked to 12 bits, VF whether the sum passed 0xFFF. -/
def execAddI (x : Nibble) (s : State) : Result :=
  .next ((s.advance.setI (s.i + (s.getV x).setWidth 12)).setFlag (indexOverflow s.i (s.getV x)))

/-- `LD F, Vx` (R172): no memory access. -/
def execLdF (x : Nibble) (s : State) : Result := .next (s.advance.setI (fontAddress (s.getV x)))

/-- `LD B, Vx` (R173): three digits at I, I+1, I+2. -/
def execLdB (x : Nibble) (s : State) : Result :=
  match writeAtI s (decimalDigits (s.getV x)) with
  | .error f => raise f
  | .ok m => .next (s.advance.setMem m)

/-- `LD [I], Vx` (R175): V0..Vx stored from I on. -/
def execLdMemVx (x : Nibble) (s : State) : Result :=
  match writeAtI s (registersUpTo s x) with
  | .error f => raise f
  | .ok m => .next (s.advance.setMem m)

/-- `LD Vx, [I]` (R176): V0..Vx loaded from I on. -/
def execLdVxMem (x : Nibble) (s : State) : Result :=
  match readAtI s (x.toNat + 1) with
  | .error f => raise f
  | .ok bytes => .next { s.advance with v := loadRegisters s.v 0 bytes }

end Sys2Proof.Machine
end

