-- ==== Sys2Proof/Machine/KeypadTimers.lean ====
section
/-! DEFINITION. The keypad and timer instructions (`45_keypad_timers.md`). -/

namespace Sys2Proof.Machine

/-- `SKP Vx` (R200). -/
def execSkp (x : Nibble) (s : State) : Result :=
  match keyOperand s x with
  | .error f => raise f
  | .ok k => .next (s.advance.skipIf s.key[k])

/-- `SKNP Vx` (R201). -/
def execSknp (x : Nibble) (s : State) : Result :=
  match keyOperand s x with
  | .error f => raise f
  | .ok k => .next (s.advance.skipIf (!s.key[k]))

/-- `LD Vx, DT` (R202). -/
def execLdVxDt (x : Nibble) (s : State) : Result := .next (s.advance.setV x s.dt)

/-- `LD DT, Vx` (R203). -/
def execLdDtVx (x : Nibble) (s : State) : Result := .next (s.advance.setDt (s.getV x))

/-- `LD ST, Vx` (R206): no sound edge. -/
def execLdStVx (x : Nibble) (s : State) : Result := .next (s.advance.setSt (s.getV x))

/-- `LD Vx, K` (R204): with no key latched the cycle changes nothing; else Vx is one of the latched keys. With several
latched, which one is a free value (KEYSEL, D11, log 6). Level-sensitive, no wait state (R205, log 15). -/
def execLdVxK (x : Nibble) (s : State) : Result :=
  match s.latchedKeys with
  | [] => .next s
  | [k] => .next (s.advance.setV x (keyByte k))
  | k :: more => .next (s.advance.countDraw.setV x (keyByte (pickKey s.draws k more)))

end Sys2Proof.Machine
end

