-- ==== Sys2Proof/Machine/Cycle.lean ====
section
/-! DEFINITION. The instruction cycle: fetch, decode, dispatch, execute (`40_cycle.md` R100 to R105). -/

namespace Sys2Proof.Machine

/-- The highest address an instruction can be fetched from (`40_cycle.md` R101). -/
def lastFetch : Nat := 0xFFE

/-- The instruction word at `pc`, high byte first; none when its two bytes are not both inside memory (`40_cycle.md` R101). -/
def fetchWord (s : State) : Option Word :=
  if lastFetch < s.pc.toNat then none
  else some (wordOfBytes (Memory.read s.mem s.pc.toNat) (Memory.read s.mem (s.pc.toNat + 1)))

/-- CYCLE (`40_cycle.md` R105): one instruction, or a fault with the state as it was. -/
def cycle (s : State) : Result :=
  match fetchWord s with
  | none => raise (.fetchAddressOutOfRange s.pc)
  | some w =>
    match decode w with
    | .unknown w => raise (.unknownInstruction w s.pc)
    | .insn i => exec i s

/-- The bytes of a word laid at the program counter, high byte first (`20_memory.md` R52). -/
def layWordAtPc (s : State) (w : Word) : State :=
  s.setMem (Memory.writeBytes s.mem s.pc.toNat [highByte w, lowByte w])

end Sys2Proof.Machine
end

