-- ==== Sys2Proof/Machine/HostOps.lean ====
section
/-! DEFINITION. The seven operations of the host (`46_host_operations.md` R220; TICK `60_exceptions.md` R253; RESET
`70_reset_and_hazards.md` R280). Each leaves its output in `reply`. -/

namespace Sys2Proof.Machine

/-- The first address of the program region and the size of the largest image (`00_scope.md` R5, PROG_BASE, PROG_MAX). -/
def programBase : Nat := 0x200
def programMax : Nat := 0xE00

/-- The state a session starts with, for a value of the parameter FONT (`10_state.md` R46, `00_scope.md` R6, log 3): the
reset values, with the font at 0x000..0x04F. For the default it is `State.reset`. -/
def State.powerOn (font : Font) : State :=
  { State.reset with mem := Memory.writeBytes [] 0 (fontBytes font), font := font }

/-- RESET (`70_reset_and_hazards.md` R280): every piece of the core's state at its reset value, the font of this machine
re-loaded. The random source is not machine state (R281) and the operations still to come are the host's: they stay. -/
def opReset (s : State) : State :=
  { State.powerOn s.font with draws := s.draws, schedule := s.schedule, hostRest := s.hostRest }

/-- LOAD (`46_host_operations.md` R221): the bytes at 0x200 and up; rejected with nothing written when the image is too
large (R222). -/
def opLoad (bytes : List Byte) (s : State) : State :=
  if programMax < bytes.length then s.setReply (.programTooLarge bytes.length)
  else (s.setMem (Memory.writeBytes s.mem programBase bytes)).setReply .nothing

/-- One tick of a timer: it stops at 0 (`60_exceptions.md` R253). -/
def countDown (b : Byte) : Byte := if b = 0 then 0 else b - 1

/-- TICK (`60_exceptions.md` R253): both timers count down, and the sound edge is raised when ST goes from 1 to 0 (R254). -/
def opTick (s : State) : State :=
  ((s.setDt (countDown s.dt)).setSt (countDown s.st)).setReply (.soundEdge (s.st != 0 && countDown s.st == 0))

/-- A latch written by the host; an index outside 0..15 is rejected with no state change (`46_host_operations.md` R224, R225). -/
def writeLatch (k : Int) (pressed : Bool) (s : State) : State :=
  if 0 ≤ k ∧ k ≤ 15 then { s.setReply .nothing with key := s.key.setIfInBounds k.toNat pressed }
  else s.setReply (.hostKeyIndexOutOfRange k)

/-- KEY_SET (`46_host_operations.md` R224). -/
def opKeySet (k : Int) (s : State) : State := writeLatch k true s

/-- KEY_CLEAR (`46_host_operations.md` R225). -/
def opKeyClear (k : Int) (s : State) : State := writeLatch k false s

/-- RENDER_READ (`46_host_operations.md` R226): the frame and REDRAW cleared when a redraw is pending, else "no frame". -/
def opRenderRead (s : State) : State :=
  if s.redraw then { s.setReply (.frame s.fb) with redraw := false }
  else s.setReply .noFrame

/-- CYCLE as an operation of the host (`40_cycle.md` R105, R107): nothing is given back on success. -/
def opCycle (s : State) : Result := cycle (s.setReply .nothing)

/-- One operation (`00_scope.md` R9). Only CYCLE can fault (`46_host_operations.md` R220). -/
def perform (op : HostOp) (s : State) : Result :=
  match op with
  | .reset => .next (opReset s)
  | .load bytes => .next (opLoad bytes s)
  | .cycle => opCycle s
  | .tick => .next (opTick s)
  | .keySet k => .next (opKeySet k s)
  | .keyClear k => .next (opKeyClear k s)
  | .renderRead => .next (opRenderRead s)

/-- The operation that comes next and the state with it taken off what the host still has to do: the first of the
schedule, and with none left the next of `hostRest`, a list begun again or a free value (`70_reset_and_hazards.md` R290,
log 7). -/
def nextOp (s : State) : HostOp × State :=
  match s.schedule with
  | op :: rest => (op, { s with schedule := rest })
  | [] =>
    match s.hostRest with
    | .loop [] => (.cycle, s)
    | .loop (op :: rest) => (op, { s with schedule := rest })
    | .free n => (Config.hostOp n, { s with hostRest := .free (n + 1) })

end Sys2Proof.Machine
end

