-- ==== Sys2Proof/Machine/Step.lean ====
section
/-! DEFINITION. One step: the next operation of the host (`70_reset_and_hazards.md` R290). -/

namespace Sys2Proof.Machine

/-- One step of the machine: one operation, performed whole (`00_scope.md` R9, log 7). -/
def step (s : State) : Host.Outcome State Fault Refusal :=
  perform (nextOp s).1 (nextOp s).2

/-- The state with an instruction of the opcode table stored at the program counter and a host that does nothing but
CYCLE, so that the next step runs it (log 17). -/
def State.withFetchWord (s : State) (nbits w : Nat) : State :=
  { layWordAtPc s (tableWord nbits w) with schedule := [], hostRest := .loop [] }

end Sys2Proof.Machine
end

