-- ==== Sys2Proof/Safety.lean ====
section
/-! DEFINITION. The terms the claims use: what is left unchanged, what an instruction may write or touch, the invariant
of the machine, and runs of operations that go on after a fault. -/

namespace Sys2Proof.Machine

/-! ## What is left unchanged -/

/-- The pieces of state, one for each field of State. -/
inductive Part where
  | mem | regs | index | pc | stack | dt | st | screen | keys | redraw | draws | schedule | hostRest | reply
  | font
  deriving DecidableEq, Repr

/-- A piece of state reads the same in two states: memory byte by byte, the registers one by one, the framebuffer pixel by
pixel. -/
def Same (p : Part) (s t : State) : Prop :=
  match p with
  | .mem => ∀ a, Memory.read t.mem a = Memory.read s.mem a
  | .regs => ∀ r, t.getV r = s.getV r
  | .index => t.i = s.i
  | .pc => t.pc = s.pc
  | .stack => t.stack = s.stack
  | .dt => t.dt = s.dt
  | .st => t.st = s.st
  | .screen => ∀ k, k < 2048 → getPixel t.fb k = getPixel s.fb k
  | .keys => ∀ k : Fin 16, t.key[k] = s.key[k]
  | .redraw => t.redraw = s.redraw
  | .draws => t.draws = s.draws
  | .schedule => t.schedule = s.schedule
  | .hostRest => t.hostRest = s.hostRest
  | .reply => t.reply = s.reply
  | .font => t.font = s.font

/-- Nothing but the named pieces of state has changed from `s` to `t`. -/
def UnchangedExcept (ps : List Part) (s t : State) : Prop := ∀ p, p ∉ ps → Same p s t

/-! ## What an instruction writes and touches -/

/-- The seven instructions that write VF as a flag (`10_state.md` R22). -/
def writesFlag : Instr → Bool
  | .addReg _ _ | .subReg _ _ | .shr _ _ | .subnReg _ _ | .shl _ _ | .addI _ | .drw _ _ _ => true
  | .cls _ | .ret _ | .jp _ | .call _ | .seImm _ _ | .sneImm _ _ | .seReg _ _ _ | .ldImm _ _ | .addImm _ _
  | .ldReg _ _ | .orReg _ _ | .andReg _ _ | .xorReg _ _ | .sneReg _ _ _ | .ldI _ | .jpV0 _ | .rnd _ _ | .skp _
  | .sknp _ | .ldVxDt _ | .ldDtVx _ | .ldStVx _ | .ldVxK _ | .ldF _ | .ldB _ | .ldMemVx _ | .ldVxMem _ => false

/-- The registers an instruction has as its destination: the rows "write `V[x]`" and "write `V[0]..V[x]`" of the access
table (`10_state.md` R24). -/
def hasDestination (i : Instr) (r : Nibble) : Prop :=
  match i with
  | .ldImm x _ | .addImm x _ | .ldReg x _ | .orReg x _ | .andReg x _ | .xorReg x _ | .addReg x _ | .subReg x _
  | .shr x _ | .subnReg x _ | .shl x _ | .rnd x _ | .ldVxDt x | .ldVxK x => r = x
  | .ldVxMem x => r ≤ x
  | .cls _ | .ret _ | .jp _ | .call _ | .seImm _ _ | .sneImm _ _ | .seReg _ _ _ | .sneReg _ _ _ | .ldI _ | .jpV0 _
  | .drw _ _ _ | .skp _ | .sknp _ | .ldDtVx _ | .ldStVx _ | .addI _ | .ldF _ | .ldB _ | .ldMemVx _ => False

/-- The number of bytes of memory an instruction touches at I (`43_index_memory.md` R174). -/
def dataCount : Instr → Nat
  | .ldB _ => 3
  | .ldMemVx x | .ldVxMem x => x.toNat + 1
  | .drw _ _ n => n.toNat
  | .cls _ | .ret _ | .jp _ | .call _ | .seImm _ _ | .sneImm _ _ | .seReg _ _ _ | .ldImm _ _ | .addImm _ _
  | .ldReg _ _ | .orReg _ _ | .andReg _ _ | .xorReg _ _ | .addReg _ _ | .subReg _ _ | .shr _ _ | .subnReg _ _
  | .shl _ _ | .sneReg _ _ _ | .ldI _ | .jpV0 _ | .rnd _ _ | .skp _ | .sknp _ | .ldVxDt _ | .ldDtVx _ | .ldStVx _
  | .ldVxK _ | .addI _ | .ldF _ => 0

/-- The pieces of state an instruction may write besides `pc` (`10_state.md` R24, R25, R30, R35, R36, R37, R40;
`20_memory.md` R50); `draws` for the two instructions that take a free value. -/
def mayWrite : Instr → List Part
  | .cls _ => [.screen, .redraw]
  | .ret _ | .call _ => [.stack]
  | .jp _ | .jpV0 _ | .seImm _ _ | .sneImm _ _ | .seReg _ _ _ | .sneReg _ _ _ | .skp _ | .sknp _ => []
  | .ldImm _ _ | .addImm _ _ | .ldReg _ _ | .orReg _ _ | .andReg _ _ | .xorReg _ _ | .addReg _ _ | .subReg _ _
  | .shr _ _ | .subnReg _ _ | .shl _ _ | .ldVxDt _ | .ldVxMem _ => [.regs]
  | .rnd _ _ | .ldVxK _ => [.regs, .draws]
  | .ldI _ | .ldF _ => [.index]
  | .addI _ => [.index, .regs]
  | .drw _ _ _ => [.screen, .redraw, .regs]
  | .ldDtVx _ => [.dt]
  | .ldStVx _ => [.st]
  | .ldB _ | .ldMemVx _ => [.mem]

/-- The instructions that do not simply leave `pc = this_pc + 2` (`10_state.md` R28). -/
def setsPc : Instr → Bool
  | .ret _ | .jp _ | .call _ | .seImm _ _ | .sneImm _ _ | .seReg _ _ _ | .sneReg _ _ _ | .jpV0 _ | .skp _ | .sknp _
  | .ldVxK _ => true
  | .cls _ | .ldImm _ _ | .addImm _ _ | .ldReg _ _ | .orReg _ _ | .andReg _ _ | .xorReg _ _ | .addReg _ _
  | .subReg _ _ | .shr _ _ | .subnReg _ _ | .shl _ _ | .ldI _ | .rnd _ _ | .drw _ _ _ | .ldVxDt _ | .ldDtVx _
  | .ldStVx _ | .addI _ | .ldF _ | .ldB _ | .ldMemVx _ | .ldVxMem _ => false

/-! ## Sprites -/

/-- The source bit of a draw at pixel (qx, qy): bit `7-c` of the byte at `I+r`, for row `r < n` and column `c < 8` with
`(V[x]+c, V[y]+r) = (qx, qy)`, and 0 where the sprite does not lie (`44_display.md` R191). -/
def sourceBit (s : State) (x y n : Nibble) (qx qy : Nat) : Bool :=
  decide ((s.getV x).toNat ≤ qx ∧ qx - (s.getV x).toNat < 8 ∧
      (s.getV y).toNat ≤ qy ∧ qy - (s.getV y).toNat < n.toNat) &&
    (Memory.read s.mem (dataAddress s + (qy - (s.getV y).toNat))).getLsbD (7 - (qx - (s.getV x).toNat))

/-- A pixel of the grid that is 1 under a source bit that is 1: it goes from 1 to 0 (`44_display.md` R191). -/
def Collides (s : State) (x y n : Nibble) : Prop :=
  ∃ qx qy, qx < 64 ∧ qy < 32 ∧ getPixel s.fb (qx + qy * 64) = true ∧ sourceBit s x y n qx qy = true

/-! ## The invariant -/

/-- What holds of every state a run can reach: memory is in its canonical form, the stack is at most 16 deep, its entries
are addresses of an instruction plus 2 (`10_state.md` R31), and `pc` is at most 0x10FE (`10_state.md` R29). -/
structure MachineInv (s : State) : Prop where
  memory : Memory.wf s.mem
  depth : s.stack.length ≤ 16
  entries : ∀ w ∈ s.stack, 2 ≤ w.toNat ∧ w.toNat ≤ 0x1000
  pcRange : s.pc.toNat ≤ 0x10FE

/-! ## Runs -/

/-- The state the machine holds after one operation, whether it faulted or not: a cycle that faults leaves the state as
it was (`60_exceptions.md` R247), and the host may go on with the next operation (R252). -/
def afterStep (s : State) : State :=
  match step s with
  | .next t => t
  | .fault _ => (nextOp s).2.setReply .nothing
  | .refused _ => s

/-- The state after `n` operations of the host, its schedule first and then what comes after it. -/
def afterSteps : Nat → State → State
  | 0, s => s
  | n + 1, s => afterSteps n (afterStep s)

/-- `CALL` executed once for each target in turn; none when one of them faults (`41_flow.md` R122). -/
def callEach : List Addr → State → Option State
  | [], s => some s
  | a :: rest, s =>
    match exec (.call a) s with
    | .next t => callEach rest t
    | _ => none

/-- `RET` executed `n` times, with the `pc` after each; none when one of them faults (`41_flow.md` R120). -/
def returnEach : Nat → State → Option (List Word)
  | 0, _ => some []
  | n + 1, s =>
    match exec (.ret 0) s with
    | .next t => (returnEach n t).map (t.pc :: ·)
    | _ => none

/-- The replies of `n` TICKs in a row, and the state after them (`60_exceptions.md` R253). -/
def ticks : Nat → State → List Reply × State
  | 0, s => ([], s)
  | n + 1, s => ((opTick s).reply :: (ticks n (opTick s)).1, (ticks n (opTick s)).2)

end Sys2Proof.Machine
end

