-- ==== Sys2Proof/WellFormed.lean ====
section
/-! DEFINITION. Which instructions are spelled as the assembler spells them (`30_encoding.md` R88). -/

namespace Sys2Proof

/-- The assembler's spelling: every ignored bit is zero (`30_encoding.md` R88: "`SHR Vx` and `SHL Vx` ... are encoded with
y = 0 unless stated", "`SE Vx, Vy` and `SNE Vx, Vy` are encoded with low nibble 0, `CLS` and `RET` with bits 11..8 zero").
All other operands fit their fields by their types (R72). The other spellings are NOT refused by the machine: the
dispatcher does not see those bits, so they execute as the same instruction (R76, D2, log 2). -/
def Instr.wellFormed : Instr → Bool
  | .cls ign => ign == 0
  | .ret ign => ign == 0
  | .jp _ => true
  | .call _ => true
  | .seImm _ _ => true
  | .sneImm _ _ => true
  | .seReg _ _ ign => ign == 0
  | .ldImm _ _ => true
  | .addImm _ _ => true
  | .ldReg _ _ => true
  | .orReg _ _ => true
  | .andReg _ _ => true
  | .xorReg _ _ => true
  | .addReg _ _ => true
  | .subReg _ _ => true
  | .shr _ ign => ign == 0
  | .subnReg _ _ => true
  | .shl _ ign => ign == 0
  | .sneReg _ _ ign => ign == 0
  | .ldI _ => true
  | .jpV0 _ => true
  | .rnd _ _ => true
  | .drw _ _ _ => true
  | .skp _ => true
  | .sknp _ => true
  | .ldVxDt _ => true
  | .ldDtVx _ => true
  | .ldStVx _ => true
  | .ldVxK _ => true
  | .addI _ => true
  | .ldF _ => true
  | .ldB _ => true
  | .ldMemVx _ => true
  | .ldVxMem _ => true

end Sys2Proof
end

