-- ==== Sys2Proof/Certificates/Slice0/Obligations.lean ====
section
/-! DEFINITION. The statements for the provers. Each docstring names the rule of spec/ it formalises and the log entries it
rests on. `exec i s` starts from the state when the cycle began, so `s.pc` is `this_pc` (log 24). -/

open Sys2Proof Sys2Proof.Machine

/-! ## Reset and the invariant -/

/-- `70_reset_and_hazards.md` R280, `10_state.md` R46: RESET from any state, and the state a session starts with, hold the
reset values, for every value of the parameter FONT (`font` is FONT[5..79], log 3). I, DT, ST, REDRAW = 0 and the empty
stack are the spec's own decision D14 (log 4); `reply` is the model's own (log 8). -/
def Obligations.ResetLeavesResetValues : Prop :=
  ∀ (font : Font) (s t : State),
    t = State.powerOn font ∨ font = s.font ∧ perform .reset s = .next t →
    (∀ k : Fin 5, Memory.read t.mem k = [0xF0, 0x90, 0x90, 0x90, 0xF0][k]) ∧
    (∀ k : Fin 75, Memory.read t.mem (5 + k) = font[k]) ∧ t.font = font ∧
    (∀ a, 80 ≤ a → a < 4096 → Memory.read t.mem a = 0) ∧
    (∀ r, t.getV r = 0) ∧ t.i = 0 ∧ t.pc = 0x200 ∧ t.stack = [] ∧ t.dt = 0 ∧ t.st = 0 ∧
    (∀ k, k < 2048 → getPixel t.fb k = false) ∧ (∀ k : Fin 16, t.key[k] = false) ∧
    t.redraw = false ∧ t.reply = .nothing

/-- `State.reset` is the state a session starts with when the parameter FONT is at its default (`00_scope.md` R6), and the
font of that state is the whole table of `20_memory.md` R58, the glyphs of digits 8 and F written out here. The default is
PRESUMED (D15, log 3). -/
def Obligations.ResetIsTheDefaultFont : Prop :=
  State.reset = State.powerOn defaultFont ∧
  (∀ a : Fin 80, Memory.read State.reset.mem a = (glyphZero ++ defaultFont.toList)[a]) ∧
  (∀ k : Fin 5, Memory.read State.reset.mem (5 * 0x8 + k) = [0xF0, 0x90, 0xF0, 0x90, 0xF0][k]) ∧
  (∀ k : Fin 5, Memory.read State.reset.mem (5 * 0xF + k) = [0xF0, 0x80, 0xF0, 0x80, 0x80][k])

/-- No operation of the host, and no instruction, changes the parameter FONT of a machine (`00_scope.md` R6; carrying it in
State is the model's own, log 3). -/
def Obligations.StepKeepsFont : Prop :=
  ∀ s t : State, step s = .next t → t.font = s.font

/-- `70_reset_and_hazards.md` R281: RESET, any sequence of operations, and RESET again: the machine state is that of the
initial reset, whatever faults came between and whatever the parameter FONT is (the random source is outside this, and so
are what the host still has to do and the model's record of the reply). -/
def Obligations.ResetRoundTrip : Prop :=
  ∀ (s : State) (ops : List HostOp),
    UnchangedExcept [.draws, .schedule, .hostRest, .reply] (State.powerOn s.font)
      (afterSteps (ops.length + 2) { s with schedule := .reset :: (ops ++ [.reset]) })

/-- The invariant `MachineInv` (`10_state.md` R29, R31; memory in canonical form) holds at reset, whatever the
parameter FONT is (log 3). -/
def Obligations.InvariantHoldsAtReset : Prop := MachineInv State.reset ∧ ∀ font, MachineInv (State.powerOn font)

/-- `10_state.md` R29, R31: every step, a CYCLE or any other operation of the host, keeps the invariant, from every state
that meets it. -/
def Obligations.StepKeepsInvariant : Prop :=
  ∀ s t : State, MachineInv s → step s = .next t → MachineInv t

/-! ## Encoding -/

/-- Decoding the word of any instruction gives the instruction back, with every operand and every ignored bit
(`30_encoding.md` R71, R77). -/
def Obligations.DecodeOfEncodeIsIdentity : Prop := ∀ i : Instr, decode (encode i) = .insn i

/-- A word that decodes to an instruction is that instruction's word: each of the 51664 defined words has one reading
(`30_encoding.md` R78, R84). -/
def Obligations.EncodeOfDecodeIsIdentity : Prop := ∀ (w : Word) (i : Instr), decode w = .insn i → encode i = w

/-- `30_encoding.md` R71: the six fields as numbers, how they overlap, and the word from its nibbles. -/
def Obligations.DecoderFieldsAreTheBits : Prop :=
  ∀ w : Word,
    (fieldClass w).toNat = w.toNat / 4096 ∧ (fieldX w).toNat = w.toNat / 256 % 16 ∧
    (fieldY w).toNat = w.toNat / 16 % 16 ∧ (fieldN w).toNat = w.toNat % 16 ∧
    (fieldKK w).toNat = w.toNat % 256 ∧ (fieldNNN w).toNat = w.toNat % 4096 ∧
    fieldKK w = fieldY w ++ fieldN w ∧ fieldNNN w = fieldX w ++ fieldKK w ∧
    w.toNat = (fieldClass w).toNat * 4096 + (fieldX w).toNat * 256 + (fieldY w).toNat * 16 + (fieldN w).toNat

/-- `30_encoding.md` R77, R78: a word decodes to an instruction of a row exactly when it passes the row's mask and match
test, so the 34 patterns are pairwise disjoint. The opcode numbers are the spec's decision D1 (log 1), the ignored bits
D2 (log 2). -/
def Obligations.WordDecodesByItsRow : Prop :=
  ∀ (w : Word) (i : Instr),
    (w &&& (opcodeRow i).1 = (opcodeRow i).2) ↔ ∃ j, decode w = .insn j ∧ opcodeRow j = opcodeRow i

/-- `30_encoding.md` R84: the unknown words, class by class; every other word is an instruction. It rests on the spec's
decisions D1 (opcode numbers, log 1), D2 (the low byte is the second key of classes 0 and E, and the other spellings
0XE0, 0XEE, 5xyN and 9xyN are instructions, log 2) and D3 (no `0nnn` call, log 22). -/
def Obligations.UnknownWordsAreThese : Prop :=
  ∀ w : Word,
    decode w = .unknown w ↔
      (w.toNat / 4096 = 0x0 ∧ w.toNat % 256 ∉ [0xE0, 0xEE]) ∨
      (w.toNat / 4096 = 0x8 ∧ w.toNat % 16 ∈ [0x8, 0x9, 0xA, 0xB, 0xC, 0xD, 0xF]) ∨
      (w.toNat / 4096 = 0xE ∧ w.toNat % 256 ∉ [0x9E, 0xA1]) ∨
      (w.toNat / 4096 = 0xF ∧ w.toNat % 256 ∉ [0x07, 0x0A, 0x15, 0x18, 0x1E, 0x29, 0x33, 0x55, 0x65])

/-- Words written out from the patterns of `30_encoding.md` R77 decode to the instructions they stand for (D1, log 1). -/
def Obligations.SampleWordsDecode : Prop :=
  decode 0x00EE = .insn (.ret 0) ∧ decode 0x2ABC = .insn (.call 0xABC) ∧ decode 0x7A7F = .insn (.addImm 0xA 0x7F) ∧
  decode 0x8AB5 = .insn (.subReg 0xA 0xB) ∧ decode 0xDAB5 = .insn (.drw 0xA 0xB 0x5) ∧
  decode 0xEAA1 = .insn (.sknp 0xA) ∧ decode 0xFA33 = .insn (.ldB 0xA) ∧ decode 0xFA65 = .insn (.ldVxMem 0xA)

/-! ## The step -/

/-- `20_memory.md` R52: the fetch is big-endian. That it reads its two bytes from any `pc` inside memory, even or odd, is
the spec's decision D9 (log 21). -/
def Obligations.FetchIsBigEndian : Prop :=
  ∀ s : State, s.pc.toNat ≤ 0xFFE → ∃ w, fetchWord s = some w ∧
    w.toNat / 256 = (Memory.read s.mem s.pc.toNat).toNat ∧
    w.toNat % 256 = (Memory.read s.mem (s.pc.toNat + 1)).toNat

/-- `40_cycle.md` R100, R105: when the host's next operation is a CYCLE and the bytes at `pc` decode to an instruction, a
step is `exec` of it at that state, with the CYCLE taken off what the host still has to do and the reply cleared (log 7,
log 8). -/
def Obligations.StepRunsDecodedInstruction : Prop :=
  ∀ (s : State) (i : Instr), (nextOp s).1 = .cycle → s.pc.toNat ≤ 0xFFE →
    decode (wordOfBytes (Memory.read s.mem s.pc.toNat) (Memory.read s.mem (s.pc.toNat + 1))) = .insn i →
    step s = exec i ((nextOp s).2.setReply .nothing) ∧
      UnchangedExcept [.schedule, .hostRest, .reply] s ((nextOp s).2.setReply .nothing)

/-- `60_exceptions.md` R242: a word with no routine ends the cycle with the word and the address it was fetched from. That
the report holds `this_pc` and the state stays is the spec's decision D5 (log 9). -/
def Obligations.StepStopsOnUnknownWord : Prop :=
  ∀ s : State, (nextOp s).1 = .cycle → s.pc.toNat ≤ 0xFFE →
    ∀ w, w = wordOfBytes (Memory.read s.mem s.pc.toNat) (Memory.read s.mem (s.pc.toNat + 1)) →
      decode w = .unknown w →
      step s = .fault (.unknownInstruction w s.pc) ∧
        afterStep s = (nextOp s).2.setReply .nothing ∧
        UnchangedExcept [.schedule, .hostRest, .reply] s (afterStep s)

/-- `60_exceptions.md` R243: a cycle faults on its fetch exactly when `pc` is above 0xFFE. The fault is the spec's decision
D8 (log 10). -/
def Obligations.StepStopsOnFetchOutOfRange : Prop :=
  ∀ s : State, (nextOp s).1 = .cycle →
    ((∃ a, step s = .fault (.fetchAddressOutOfRange a)) ↔ 0xFFE < s.pc.toNat) ∧
    (0xFFE < s.pc.toNat → step s = .fault (.fetchAddressOutOfRange s.pc))

/-- `70_reset_and_hazards.md` R290 as the model represents it (log 7): the operations come one a step, whole and in order:
those of the schedule, and after them, for ever, a list over and over, or the free operations `Config.hostOp n`,
`Config.hostOp (n + 1)`, ..., which may be any interleaving. Only a CYCLE among them can stop a step. -/
def Obligations.StepPerformsScheduledOperation : Prop :=
  ∀ s : State,
    (∀ op rest, s.schedule = op :: rest → step s = perform op { s with schedule := rest }) ∧
    (s.schedule = [] →
      (s.hostRest = .loop [] → step s = perform .cycle s) ∧
      (∀ op rest, s.hostRest = .loop (op :: rest) → step s = perform op { s with schedule := rest } ∧
        (afterSteps (rest.length + 1) s).schedule = [] ∧
        (afterSteps (rest.length + 1) s).hostRest = .loop (op :: rest)) ∧
      (∀ n, s.hostRest = .free n → step s = perform (Config.hostOp n) { s with hostRest := .free (n + 1) } ∧
        ∀ k, (afterSteps k s).schedule = [] ∧ (afterSteps k s).hostRest = .free (n + k))) ∧
    ((nextOp s).1 ≠ .cycle → ∃ t, step s = .next t ∧
      t.schedule = (nextOp s).2.schedule ∧ t.hostRest = (nextOp s).2.hostRest)

/-- `60_exceptions.md` R241, R248: the faults executing an instruction can raise, each with its condition and its report,
and no others. DataAddressOutOfRange and KeyIndexOutOfRange are the spec's decisions D7 and D10 (log 10, log 11). -/
def Obligations.ExecutionFaultsAreThese : Prop :=
  ∀ (i : Instr) (s : State) (f : Fault), exec i s = .fault f ↔
    ((∃ nnn, i = .call nnn) ∧ 16 ≤ s.stack.length ∧ f = .stackOverflow s.pc) ∨
    ((∃ g, i = .ret g) ∧ s.stack = [] ∧ f = .stackUnderflow s.pc) ∨
    (1 ≤ dataCount i ∧ 0xFFF < dataAddress s + dataCount i - 1 ∧
      f = .dataAddressOutOfRange (dataAddress s + dataCount i - 1) s.pc) ∨
    (∃ x, (i = .skp x ∨ i = .sknp x) ∧ 15 < (s.getV x).toNat ∧ f = .keyIndexOutOfRange (s.getV x) s.pc)

/-- No step is ever refused: every word has a meaning or the spec's own fault (`30_encoding.md` R84, R87). -/
def Obligations.StepIsNeverRefused : Prop := ∀ (s : State) (r : Refusal), step s ≠ .refused r

/-- `60_exceptions.md` R252: after a fault another CYCLE raises the same fault, also when TICKs, key operations and render
reads come between. It rests on the spec's decision D5 (log 9). -/
def Obligations.FaultRepeats : Prop :=
  ∀ (s t : State) (f : Fault) (op : HostOp),
    op = .tick ∨ (∃ k, op = .keySet k) ∨ (∃ k, op = .keyClear k) ∨ op = .renderRead →
    perform .cycle s = .fault f → perform op s = .next t → perform .cycle t = .fault f

/-! ## Control transfer -/

/-- `41_flow.md` R121: `JP nnn`. The opcode number is D1 (log 1). -/
def Obligations.JumpSetsPc : Prop :=
  (∀ w : Word, w &&& 0xF000 = 0x1000 → decode w = .insn (.jp (fieldNNN w))) ∧
  ∀ (nnn : Addr) (s : State), ∃ t, exec (.jp nnn) s = .next t ∧ t.pc.toNat = nnn.toNat ∧ UnchangedExcept [.pc] s t

/-- `41_flow.md` R122: `CALL nnn` pushes the address of the next instruction and jumps; with 16 entries on the stack it
faults. The opcode number is D1 (log 1). -/
def Obligations.CallPushesReturnAddress : Prop :=
  (∀ w : Word, w &&& 0xF000 = 0x2000 → decode w = .insn (.call (fieldNNN w))) ∧
  ∀ (nnn : Addr) (s : State),
    (s.stack.length < 16 → ∃ t, exec (.call nnn) s = .next t ∧ t.stack = (s.pc + 2) :: s.stack ∧
      t.pc.toNat = nnn.toNat ∧ UnchangedExcept [.pc, .stack] s t) ∧
    (16 ≤ s.stack.length → exec (.call nnn) s = .fault (.stackOverflow s.pc))

/-- `41_flow.md` R120: `RET` pops the newest entry into `pc`, unmasked; with no entry it faults. The opcode number and the
ignored bits are D1 and D2 (log 1, log 2). -/
def Obligations.ReturnPopsPc : Prop :=
  (∀ w : Word, w &&& 0xF0FF = 0x00EE → ∃ g, decode w = .insn (.ret g)) ∧
  ∀ (g : Nibble) (s : State),
    (∀ w rest, s.stack = w :: rest → ∃ t, exec (.ret g) s = .next t ∧ t.pc = w ∧ t.stack = rest ∧
      UnchangedExcept [.pc, .stack] s t) ∧
    (s.stack = [] → exec (.ret g) s = .fault (.stackUnderflow s.pc))

/-- A `RET` executed right after a `CALL` comes back to the instruction after the call with the state otherwise as it was
(`41_flow.md` R120, R122). -/
def Obligations.ReturnUndoesCall : Prop :=
  ∀ (nnn : Addr) (g : Nibble) (s : State), s.stack.length < 16 →
    ∃ t u, exec (.call nnn) s = .next t ∧ exec (.ret g) t = .next u ∧ u.pc = s.pc + 2 ∧ UnchangedExcept [.pc] s u

/-- "16 nested calls succeed; the 17th call raises stack-overflow", and as many returns restore the pushed addresses, last
pushed first, the outermost one last (`10_state.md` R33, R34, `41_flow.md` R120 with the spec's reading C9). -/
def Obligations.NestedCallsAndReturns : Prop :=
  ∀ (a : Addr) (targets : List Addr) (s : State), s.stack = [] →
    (targets.length < 16 → ∃ t, callEach (a :: targets) s = some t ∧
      returnEach (targets.length + 1) t =
        some ((((a :: targets).dropLast.map fun b => (b.setWidth 16 + 2 : Word)).reverse) ++ [s.pc + 2])) ∧
    (16 ≤ targets.length → callEach (a :: targets) s = none)

/-- `41_flow.md` R123, R124: the skips on an immediate. The opcode numbers are D1 (log 1). -/
def Obligations.SkipOnImmediate : Prop :=
  (∀ w : Word, w &&& 0xF000 = 0x3000 → decode w = .insn (.seImm (fieldX w) (fieldKK w))) ∧
  (∀ w : Word, w &&& 0xF000 = 0x4000 → decode w = .insn (.sneImm (fieldX w) (fieldKK w))) ∧
  ∀ (x : Nibble) (kk : Byte) (s : State),
    (∃ t, exec (.seImm x kk) s = .next t ∧ UnchangedExcept [.pc] s t ∧
      t.pc = if s.getV x = kk then s.pc + 4 else s.pc + 2) ∧
    (∃ t, exec (.sneImm x kk) s = .next t ∧ UnchangedExcept [.pc] s t ∧
      t.pc = if s.getV x = kk then s.pc + 2 else s.pc + 4)

/-- `41_flow.md` R125, R126: the skips on two registers, whatever the ignored low nibble. The opcode numbers and the
ignored bits are D1 and D2 (log 1, log 2). -/
def Obligations.SkipOnRegisters : Prop :=
  (∀ w : Word, w &&& 0xF000 = 0x5000 → ∃ g, decode w = .insn (.seReg (fieldX w) (fieldY w) g)) ∧
  (∀ w : Word, w &&& 0xF000 = 0x9000 → ∃ g, decode w = .insn (.sneReg (fieldX w) (fieldY w) g)) ∧
  ∀ (x y g : Nibble) (s : State),
    (∃ t, exec (.seReg x y g) s = .next t ∧ UnchangedExcept [.pc] s t ∧
      t.pc = if s.getV x = s.getV y then s.pc + 4 else s.pc + 2) ∧
    (∃ t, exec (.sneReg x y g) s = .next t ∧ UnchangedExcept [.pc] s t ∧
      t.pc = if s.getV x = s.getV y then s.pc + 2 else s.pc + 4)

/-- `41_flow.md` R127: `JP V0, nnn`; the sum is not reduced, so it lies in 0..0x10FE. The opcode number is D1 (log 1). -/
def Obligations.JumpWithOffset : Prop :=
  (∀ w : Word, w &&& 0xF000 = 0xB000 → decode w = .insn (.jpV0 (fieldNNN w))) ∧
  ∀ (nnn : Addr) (s : State), ∃ t, exec (.jpV0 nnn) s = .next t ∧
    t.pc.toNat = nnn.toNat + (s.getV 0).toNat ∧ t.pc.toNat ≤ 0x10FE ∧ UnchangedExcept [.pc] s t

/-! ## Arithmetic and logic -/

/-- `42_alu.md` R140: `LD Vx, kk`; VF changes only if x = 0xF. -/
def Obligations.LoadImmediate : Prop :=
  (∀ w : Word, w &&& 0xF000 = 0x6000 → decode w = .insn (.ldImm (fieldX w) (fieldKK w))) ∧
  ∀ (x : Nibble) (kk : Byte) (s : State), ∃ t, exec (.ldImm x kk) s = .next t ∧ t.pc = s.pc + 2 ∧
    (∀ r, t.getV r = if r = x then kk else s.getV r) ∧ UnchangedExcept [.regs, .pc] s t

/-- `42_alu.md` R141: `ADD Vx, kk` wraps modulo 256 and does not write VF as a flag. -/
def Obligations.AddImmediateWrapsWithoutFlag : Prop :=
  (∀ w : Word, w &&& 0xF000 = 0x7000 → decode w = .insn (.addImm (fieldX w) (fieldKK w))) ∧
  ∀ (x : Nibble) (kk : Byte) (s : State), ∃ t, exec (.addImm x kk) s = .next t ∧ t.pc = s.pc + 2 ∧
    (t.getV x).toNat = ((s.getV x).toNat + kk.toNat) % 256 ∧
    (∀ r, r ≠ x → t.getV r = s.getV r) ∧ UnchangedExcept [.regs, .pc] s t

/-- `42_alu.md` R143 to R146: copy, OR, AND and XOR, bit by bit, with no flag effect. The opcode numbers are D1 (log 1). -/
def Obligations.CopyAndLogic : Prop :=
  (∀ w : Word, w &&& 0xF00F = 0x8000 → decode w = .insn (.ldReg (fieldX w) (fieldY w))) ∧
  (∀ w : Word, w &&& 0xF00F = 0x8001 → decode w = .insn (.orReg (fieldX w) (fieldY w))) ∧
  (∀ w : Word, w &&& 0xF00F = 0x8002 → decode w = .insn (.andReg (fieldX w) (fieldY w))) ∧
  (∀ w : Word, w &&& 0xF00F = 0x8003 → decode w = .insn (.xorReg (fieldX w) (fieldY w))) ∧
  ∀ (x y : Nibble) (s : State) (i : Instr) (op : Bool → Bool → Bool),
    (i = .ldReg x y ∧ op = fun _ b => b) ∨ (i = .orReg x y ∧ op = or) ∨ (i = .andReg x y ∧ op = and) ∨
      (i = .xorReg x y ∧ op = xor) →
    ∃ t, exec i s = .next t ∧ t.pc = s.pc + 2 ∧
      (∀ k, k < 8 → (t.getV x).getLsbD k = op ((s.getV x).getLsbD k) ((s.getV y).getLsbD k)) ∧
      (∀ r, r ≠ x → t.getV r = s.getV r) ∧ UnchangedExcept [.regs, .pc] s t

/-- `42_alu.md`, `ADD Vx, Vy`: the sum modulo 256 and VF 1 exactly when the unclamped sum exceeds 255, from the values
before the instruction. That VF keeps the flag when x = 0xF is the spec's decision D12 (log 12). -/
def Obligations.AddRegistersWithCarry : Prop :=
  ∀ (x y : Nibble) (s : State), ∃ t, exec (.addReg x y) s = .next t ∧ t.pc = s.pc + 2 ∧
    (x ≠ vf → (t.getV x).toNat = ((s.getV x).toNat + (s.getV y).toNat) % 256) ∧
    (t.getV vf).toNat = (if (s.getV x).toNat + (s.getV y).toNat > 255 then 1 else 0) ∧
    (∀ r, r ≠ x → r ≠ vf → t.getV r = s.getV r) ∧ UnchangedExcept [.regs, .pc] s t

/-- `42_alu.md`, `SUB Vx, Vy` and `SUBN Vx, Vy`: the difference modulo 256 and VF 1 exactly when no borrow is needed, from
the values before the instruction. That VF keeps the flag when x = 0xF is the spec's decision D12 (log 12); which way the
flag goes is the variant the source fixes (log 20). -/
def Obligations.SubtractWithNoBorrowFlag : Prop :=
  ∀ (x y : Nibble) (s : State) (i : Instr) (a b : Byte),
    (i = .subReg x y ∧ a = s.getV x ∧ b = s.getV y) ∨ (i = .subnReg x y ∧ a = s.getV y ∧ b = s.getV x) →
    ∃ t, exec i s = .next t ∧ t.pc = s.pc + 2 ∧
      (x ≠ vf → (t.getV x).toNat = if b.toNat ≤ a.toNat then a.toNat - b.toNat else a.toNat + 256 - b.toNat) ∧
      (t.getV vf).toNat = (if b.toNat ≤ a.toNat then 1 else 0) ∧
      (∀ r, r ≠ x → r ≠ vf → t.getV r = s.getV r) ∧ UnchangedExcept [.regs, .pc] s t

/-- `42_alu.md`, `SHR Vx` and `SHL Vx`: Vx is shifted in place by one and VF is the bit shifted out; Vy (the ignored field)
is neither read nor written. That VF keeps the flag when x = 0xF is the spec's decision D12 (log 12). -/
def Obligations.ShiftsInPlace : Prop :=
  ∀ (x g : Nibble) (s : State),
    (∃ t, exec (.shr x g) s = .next t ∧ t.pc = s.pc + 2 ∧
      (x ≠ vf → (t.getV x).toNat = (s.getV x).toNat / 2) ∧ (t.getV vf).toNat = (s.getV x).toNat % 2 ∧
      (∀ r, r ≠ x → r ≠ vf → t.getV r = s.getV r) ∧ UnchangedExcept [.regs, .pc] s t) ∧
    (∃ t, exec (.shl x g) s = .next t ∧ t.pc = s.pc + 2 ∧
      (x ≠ vf → (t.getV x).toNat = (s.getV x).toNat * 2 % 256) ∧ (t.getV vf).toNat = (s.getV x).toNat / 128 ∧
      (∀ r, r ≠ x → r ≠ vf → t.getV r = s.getV r) ∧ UnchangedExcept [.regs, .pc] s t)

/-- `42_alu.md` R154: `RND Vx, kk` writes a drawn byte masked by kk, whatever the byte: a free value, so every set bit of
the result is a bit of kk and the old Vx has no influence. The opcode number is D1 (log 1); `draws` is the model's own
(log 5). -/
def Obligations.RandomByteIsMasked : Prop :=
  (∀ w : Word, w &&& 0xF000 = 0xC000 → decode w = .insn (.rnd (fieldX w) (fieldKK w))) ∧
  ∀ (x : Nibble) (kk : Byte) (s : State), ∃ t, exec (.rnd x kk) s = .next t ∧ t.pc = s.pc + 2 ∧
    (∀ k, k < 8 → (t.getV x).getLsbD k = ((Config.drawnByte s.draws).getLsbD k && kk.getLsbD k)) ∧
    (t.getV x).toNat ≤ kk.toNat ∧ t.draws = s.draws + 1 ∧
    (∀ r, r ≠ x → t.getV r = s.getV r) ∧ UnchangedExcept [.regs, .pc, .draws] s t

/-! ## The index register and memory -/

/-- `43_index_memory.md` R170, R172: `LD I, nnn` and `LD F, Vx`. The opcode numbers are D1 (log 1). -/
def Obligations.LoadIndexAndFontAddress : Prop :=
  (∀ w : Word, w &&& 0xF000 = 0xA000 → decode w = .insn (.ldI (fieldNNN w))) ∧
  (∀ w : Word, w &&& 0xF0FF = 0xF029 → decode w = .insn (.ldF (fieldX w))) ∧
  (∀ (nnn : Addr) (s : State), ∃ t, exec (.ldI nnn) s = .next t ∧ t.pc = s.pc + 2 ∧ t.i = nnn ∧
    UnchangedExcept [.index, .pc] s t) ∧
  ∀ (x : Nibble) (s : State), ∃ t, exec (.ldF x) s = .next t ∧ t.pc = s.pc + 2 ∧
    t.i.toNat = 5 * ((s.getV x).toNat % 16) ∧ UnchangedExcept [.index, .pc] s t

/-- `43_index_memory.md`, `ADD I, Vx`: the sum modulo 4096 and VF 1 exactly when the sum exceeds 0xFFF, from the value of
Vx before VF is written (the spec's decision D12, log 12). -/
def Obligations.AddIndexWithOverflowFlag : Prop :=
  ∀ (x : Nibble) (s : State), ∃ t, exec (.addI x) s = .next t ∧ t.pc = s.pc + 2 ∧
    t.i.toNat = (s.i.toNat + (s.getV x).toNat) % 4096 ∧
    (t.getV vf).toNat = (if s.i.toNat + (s.getV x).toNat > 0xFFF then 1 else 0) ∧
    (∀ r, r ≠ vf → t.getV r = s.getV r) ∧ UnchangedExcept [.index, .regs, .pc] s t

/-- `43_index_memory.md`, `LD B, Vx`: the decimal digits of Vx, hundreds first, at I, I+1, I+2, and no other byte; I is not
advanced. In a state of the invariant and with all three bytes in memory (otherwise it faults: the spec's decision D7,
log 10). -/
def Obligations.StoreDecimalDigits : Prop :=
  ∀ (x : Nibble) (s : State) (a : Nat), Memory.wf s.mem → dataAddress s = a → a + 2 ≤ 0xFFF →
    ∃ t, exec (.ldB x) s = .next t ∧ t.pc = s.pc + 2 ∧
      (Memory.read t.mem a).toNat = (s.getV x).toNat / 100 ∧
      (Memory.read t.mem (a + 1)).toNat = (s.getV x).toNat / 10 % 10 ∧
      (Memory.read t.mem (a + 2)).toNat = (s.getV x).toNat % 10 ∧
      (∀ a', a' < a ∨ a + 2 < a' → Memory.read t.mem a' = Memory.read s.mem a') ∧ UnchangedExcept [.mem, .pc] s t

/-- `43_index_memory.md`, `LD [I], Vx`: V0..Vx, inclusive, at I, I+1, ..., I+x, and no other byte; I is not advanced (log
20). In a state of the invariant and with all bytes in memory (otherwise it faults: D7, log 10). -/
def Obligations.StoreRegisters : Prop :=
  ∀ (x : Nibble) (s : State) (a : Nat), Memory.wf s.mem → dataAddress s = a → a + x.toNat ≤ 0xFFF →
    ∃ t, exec (.ldMemVx x) s = .next t ∧ t.pc = s.pc + 2 ∧
      (∀ r : Nibble, r ≤ x → Memory.read t.mem (a + r.toNat) = s.getV r) ∧
      (∀ a', a' < a ∨ a + x.toNat < a' → Memory.read t.mem a' = Memory.read s.mem a') ∧ UnchangedExcept [.mem, .pc] s t

/-- `43_index_memory.md`, `LD Vx, [I]`: V0..Vx, inclusive, from I, I+1, ..., I+x; the registers above x, I and memory are
unchanged. With all bytes in memory (otherwise it faults: D7, log 10). -/
def Obligations.LoadRegisters : Prop :=
  ∀ (x : Nibble) (s : State), dataAddress s + x.toNat ≤ 0xFFF →
    ∃ t, exec (.ldVxMem x) s = .next t ∧ t.pc = s.pc + 2 ∧
      (∀ r, t.getV r = if r ≤ x then Memory.read s.mem (dataAddress s + r.toNat) else s.getV r) ∧
      UnchangedExcept [.regs, .pc] s t

/-- "After `LD [I], Vx` then `LD Vx, [I]` with the same `I` and x, registers 0..x hold what they held"
(`43_index_memory.md` R176), whatever happened to everything but memory and I in between. -/
def Obligations.LoadAfterStoreRestores : Prop :=
  ∀ (x : Nibble) (s t u w : State), Memory.wf s.mem → exec (.ldMemVx x) s = .next t →
    u.mem = t.mem → u.i = s.i → exec (.ldVxMem x) u = .next w →
    ∀ r, r ≤ x → w.getV r = s.getV r

/-- `20_memory.md` R63: a store over the next instruction is what the next cycle fetches. -/
def Obligations.StoreIsFetchedNext : Prop :=
  ∀ (x : Nibble) (s t : State), Memory.wf s.mem → 1 ≤ x.toNat → s.pc.toNat ≤ 0xFFC →
    dataAddress s = s.pc.toNat + 2 → exec (.ldMemVx x) s = .next t →
    fetchWord t = some (wordOfBytes (s.getV 0) (s.getV 1))

/-! ## Display -/

/-- `44_display.md` R190: `CLS`. The opcode number and the ignored bits are D1 and D2 (log 1, log 2). -/
def Obligations.ClearScreen : Prop :=
  (∀ w : Word, w &&& 0xF0FF = 0x00E0 → ∃ g, decode w = .insn (.cls g)) ∧
  ∀ (g : Nibble) (s : State), ∃ t, exec (.cls g) s = .next t ∧ t.pc = s.pc + 2 ∧
    (∀ k, k < 2048 → getPixel t.fb k = false) ∧ t.redraw = true ∧ UnchangedExcept [.screen, .redraw, .pc] s t

/-- `44_display.md`, `DRW Vx, Vy, n`: every pixel of the 64 x 32 grid is XORed with the sprite's bit there, pixels outside
are clipped, VF is 1 exactly when some pixel goes from 1 to 0, a redraw is pending, and nothing else changes. With all n
bytes in memory (otherwise it faults: D7, log 10). The unreduced start coordinates are the spec's decision D13, n = 0 is
D25 (log 13), and reading the coordinates before VF is written is D12 (log 12). -/
def Obligations.DrawXorsSprite : Prop :=
  ∀ (x y n : Nibble) (s : State), n = 0 ∨ dataAddress s + n.toNat - 1 ≤ 0xFFF →
    ∃ t, exec (.drw x y n) s = .next t ∧ t.pc = s.pc + 2 ∧
      (∀ qx qy, qx < 64 → qy < 32 →
        getPixel t.fb (qx + qy * 64) = (getPixel s.fb (qx + qy * 64) ^^ sourceBit s x y n qx qy)) ∧
      (Collides s x y n → t.getV vf = 1) ∧ (¬ Collides s x y n → t.getV vf = 0) ∧
      (∀ r, r ≠ vf → t.getV r = s.getV r) ∧ t.redraw = true ∧ UnchangedExcept [.screen, .redraw, .regs, .pc] s t

/-- "Drawing the same sprite twice at the same location (double XOR) restores the framebuffer" (`44_display.md` R191), and
on a blank screen the second draw sets VF exactly when the sprite has a 1 bit inside the grid. The coordinates are not in
VF, which the first draw writes (log 25). Where the sprite lies is `sourceBit`, at unreduced coordinates: for Vx above 63 or
Vy above 31 that is the spec's decision D13 (log 13). -/
def Obligations.DrawTwiceRestores : Prop :=
  ∀ (x y n : Nibble) (s t u : State), x ≠ vf → y ≠ vf →
    exec (.drw x y n) s = .next t → exec (.drw x y n) t = .next u →
    u.fb = s.fb ∧
    ((∀ k, k < 2048 → getPixel s.fb k = false) → t.getV vf = 0 ∧
      (u.getV vf = 1 ↔ ∃ qx qy, qx < 64 ∧ qy < 32 ∧ sourceBit s x y n qx qy = true))

/-! ## Keypad and timers -/

/-- `45_keypad_timers.md`, `SKP Vx` and `SKNP Vx`: a skip on the latch of the key whose number is in Vx. A number above 15
faults (the spec's decision D10, log 11). -/
def Obligations.SkipOnKey : Prop :=
  ∀ (x : Nibble) (s : State),
    (∀ k : Fin 16, (s.getV x).toNat = k.val →
      (∃ t, exec (.skp x) s = .next t ∧ UnchangedExcept [.pc] s t ∧
        t.pc = if s.key[k] = true then s.pc + 4 else s.pc + 2) ∧
      (∃ t, exec (.sknp x) s = .next t ∧ UnchangedExcept [.pc] s t ∧
        t.pc = if s.key[k] = true then s.pc + 2 else s.pc + 4)) ∧
    (15 < (s.getV x).toNat →
      exec (.skp x) s = .fault (.keyIndexOutOfRange (s.getV x) s.pc) ∧
      exec (.sknp x) s = .fault (.keyIndexOutOfRange (s.getV x) s.pc))

/-- `45_keypad_timers.md` R202, R203, R206: the instructions that read and write the timers. The opcode numbers are D1
(log 1). -/
def Obligations.TimerReadAndWrite : Prop :=
  (∀ w : Word, w &&& 0xF0FF = 0xF007 → decode w = .insn (.ldVxDt (fieldX w))) ∧
  (∀ w : Word, w &&& 0xF0FF = 0xF015 → decode w = .insn (.ldDtVx (fieldX w))) ∧
  (∀ w : Word, w &&& 0xF0FF = 0xF018 → decode w = .insn (.ldStVx (fieldX w))) ∧
  ∀ (x : Nibble) (s : State),
    (∃ t, exec (.ldVxDt x) s = .next t ∧ t.pc = s.pc + 2 ∧ (∀ r, t.getV r = if r = x then s.dt else s.getV r) ∧
      UnchangedExcept [.regs, .pc] s t) ∧
    (∃ t, exec (.ldDtVx x) s = .next t ∧ t.pc = s.pc + 2 ∧ t.dt = s.getV x ∧ UnchangedExcept [.dt, .pc] s t) ∧
    (∃ t, exec (.ldStVx x) s = .next t ∧ t.pc = s.pc + 2 ∧ t.st = s.getV x ∧ UnchangedExcept [.st, .pc] s t)

/-- `45_keypad_timers.md`, `LD Vx, K` with no key latched: the cycle changes nothing at all, `pc` included, so the next
CYCLE tries again. The wait without a state of its own is the spec's decision D11 (log 15). -/
def Obligations.KeyWaitHolds : Prop :=
  ∀ (x : Nibble) (s : State), (∀ k : Fin 16, s.key[k] = false) → exec (.ldVxK x) s = .next s

/-- `45_keypad_timers.md`, `LD Vx, K` with a key latched: Vx is the number of a latched key and the program goes on; with
one key latched it is that key, with several any of them (KEYSEL, the spec's decision D11, a free value, log 6). No latch
changes. -/
def Obligations.KeyWaitEnds : Prop :=
  ∀ (x : Nibble) (s : State) (k : Fin 16), s.key[k] = true →
    ∃ t, exec (.ldVxK x) s = .next t ∧ t.pc = s.pc + 2 ∧
      (∃ j : Fin 16, s.key[j] = true ∧ (t.getV x).toNat = j.val) ∧
      ((∀ j : Fin 16, s.key[j] = true → j = k) → (t.getV x).toNat = k.val ∧ t.draws = s.draws) ∧
      (∀ r, r ≠ x → t.getV r = s.getV r) ∧ UnchangedExcept [.regs, .pc, .draws] s t

/-! ## Whole-machine rules -/

/-- `10_state.md` R22: the seven flag-writing instructions leave VF 0 or 1 on every execution, and no other instruction
writes VF unless it has VF as its destination. That VF holds the flag, 0 or 1, also where it is the destination of a
flag-writing instruction (x = 0xF) is the spec's decision D12 (log 12). -/
def Obligations.OnlySevenInstructionsWriteFlag : Prop :=
  ∀ (i : Instr) (s t : State), exec i s = .next t →
    (writesFlag i = true → t.getV vf = 0 ∨ t.getV vf = 1) ∧
    (writesFlag i = false → ¬ hasDestination i vf → t.getV vf = s.getV vf)

/-- `10_state.md` R24, its rows of writes: an instruction writes no register but its destinations and, where it writes the
flag, VF. -/
def Obligations.RegistersWrittenAreDestinations : Prop :=
  ∀ (i : Instr) (s t : State) (r : Nibble), exec i s = .next t →
    ¬ hasDestination i r → ¬ (writesFlag i = true ∧ r = vf) → t.getV r = s.getV r

/-- Which instructions can change which piece of state: memory, the registers, I, the stack, the timers, the framebuffer,
REDRAW; no instruction changes a latch, what the host still has to do or the reply (`10_state.md` R24, R25, R30, R35 to R40; `draws` is the
model's own, log 5, log 6; so is `font`, log 3). -/
def Obligations.InstructionsWriteOnlyTheirParts : Prop :=
  ∀ (i : Instr) (s t : State), exec i s = .next t → UnchangedExcept (.pc :: mayWrite i) s t

/-- `40_cycle.md` R108: what a cycle never does, and the only state a cycle can change. -/
def Obligations.CycleNeverDoes : Prop :=
  ∀ s t : State, perform .cycle s = .next t →
    (t.dt = s.dt ∨ ∃ w x, fetchWord s = some w ∧ decode w = .insn (.ldDtVx x) ∧ t.dt = s.getV x) ∧
    (t.st = s.st ∨ ∃ w x, fetchWord s = some w ∧ decode w = .insn (.ldStVx x) ∧ t.st = s.getV x) ∧
    (∀ k : Fin 16, t.key[k] = s.key[k]) ∧ (s.redraw = true → t.redraw = true) ∧ t.reply = .nothing ∧
    UnchangedExcept [.mem, .regs, .index, .pc, .stack, .dt, .st, .screen, .redraw, .draws, .reply] s t

/-- `10_state.md` R28: the `pc` after each instruction that completes. That the key wait which finds no key leaves the whole
state as it was, with no wait state of its own, is the spec's decision D11 (`45_keypad_timers.md`, `LD Vx, K`, log 15). -/
def Obligations.PcAfterInstruction : Prop :=
  ∀ (i : Instr) (s t : State), exec i s = .next t →
    (setsPc i = false → t.pc = s.pc + 2) ∧
    (∀ nnn, i = .jp nnn ∨ i = .call nnn → t.pc.toNat = nnn.toNat) ∧
    (∀ nnn, i = .jpV0 nnn → t.pc.toNat = nnn.toNat + (s.getV 0).toNat) ∧
    (∀ g, i = .ret g → s.stack.head? = some t.pc) ∧
    (∀ x, i = .ldVxK x → t.pc = s.pc ∧ t = s ∨ t.pc = s.pc + 2 ∧ ∃ k : Fin 16, s.key[k] = true) ∧
    ((∃ x kk, i = .seImm x kk ∨ i = .sneImm x kk) ∨ (∃ x y g, i = .seReg x y g ∨ i = .sneReg x y g) ∨
        (∃ x, i = .skp x ∨ i = .sknp x) → t.pc = s.pc + 2 ∨ t.pc = s.pc + 4)

/-! ## Operations of the host -/

/-- `60_exceptions.md` R253: TICK counts each nonzero timer down by one and changes nothing else; its output is the edge. -/
def Obligations.TickCountsDown : Prop :=
  ∀ s : State, ∃ t, perform .tick s = .next t ∧
    t.dt.toNat = (if s.dt.toNat > 0 then s.dt.toNat - 1 else 0) ∧
    t.st.toNat = (if s.st.toNat > 0 then s.st.toNat - 1 else 0) ∧
    t.reply = .soundEdge (decide (s.st.toNat > 0 ∧ t.st.toNat = 0)) ∧ UnchangedExcept [.dt, .st, .reply] s t

/-- `60_exceptions.md` R254: the sound edge is raised by exactly those TICKs that take ST from 1 to 0, and by no other
operation. -/
def Obligations.SoundEdgeIsOneToZero : Prop :=
  ∀ (s t : State) (op : HostOp), perform op s = .next t →
    (t.reply = .soundEdge true ↔ op = .tick ∧ s.st = 1 ∧ t.st = 0)

/-- n TICKs in a row: both timers are down by n and stop at 0, and the edge comes once, on the tick that reaches 0, none
before and none after (`60_exceptions.md` R253, R254; the source's example with ST = 60). -/
def Obligations.TicksInARow : Prop :=
  ∀ (n : Nat) (s : State),
    (ticks n s).2.dt.toNat = s.dt.toNat - n ∧ (ticks n s).2.st.toNat = s.st.toNat - n ∧
    (ticks n s).1.length = n ∧
    ∀ k, k < n → (ticks n s).1[k]? = some (.soundEdge (decide (k + 1 = s.st.toNat)))

/-- `46_host_operations.md` R221, R222: LOAD writes the image 1:1 from 0x200 on and nothing else; an image of more than
0xE00 bytes is rejected with its length and no byte written. In a state of the invariant. -/
def Obligations.LoadWritesProgram : Prop :=
  ∀ (bytes : List Byte) (s : State), Memory.wf s.mem → ∃ t, perform (.load bytes) s = .next t ∧
    (bytes.length ≤ 0xE00 →
      (∀ k, k < bytes.length → some (Memory.read t.mem (0x200 + k)) = bytes[k]?) ∧
      (∀ a, a < 0x200 ∨ 0x200 + bytes.length ≤ a → Memory.read t.mem a = Memory.read s.mem a) ∧
      t.reply = .nothing ∧ UnchangedExcept [.mem, .reply] s t) ∧
    (0xE00 < bytes.length → t.reply = .programTooLarge bytes.length ∧ UnchangedExcept [.reply] s t)

/-- `46_host_operations.md` R224, R225: KEY_SET and KEY_CLEAR write the latch of their key; an index outside 0..15 is
rejected with no state change; a latch once set stays set until its KEY_CLEAR or a RESET. -/
def Obligations.KeyOperationsWriteLatch : Prop :=
  (∀ (k : Int) (s : State) (op : HostOp) (b : Bool),
    (op = .keySet k ∧ b = true) ∨ (op = .keyClear k ∧ b = false) → ∃ t, perform op s = .next t ∧
      (0 ≤ k ∧ k ≤ 15 → (∀ j : Fin 16, t.key[j] = if (j.val : Int) = k then b else s.key[j]) ∧
        t.reply = .nothing ∧ UnchangedExcept [.keys, .reply] s t) ∧
      (¬ (0 ≤ k ∧ k ≤ 15) → t.reply = .hostKeyIndexOutOfRange k ∧ UnchangedExcept [.reply] s t)) ∧
  ∀ (op : HostOp) (s t : State) (j : Fin 16), perform op s = .next t → s.key[j] = true →
    op ≠ .reset → op ≠ .keyClear (j.val : Int) → t.key[j] = true

/-- `46_host_operations.md`, RENDER_READ: with a redraw pending the frame is given back and REDRAW cleared, else "no
frame" (the spec's decision D21, log 19); the framebuffer does not change. -/
def Obligations.RenderReadGivesFrame : Prop :=
  ∀ s : State, ∃ t, perform .renderRead s = .next t ∧ t.redraw = false ∧
    (s.redraw = true → t.reply = .frame s.fb ∧ UnchangedExcept [.redraw, .reply] s t) ∧
    (s.redraw = false → t.reply = .noFrame ∧ UnchangedExcept [.reply] s t)
end

