-- ==== Sys2Proof/Laws/Decode.lean ====
section
/-! SUPPORT. The fields of a word as numbers, and of a word put together from its nibbles (`30_encoding.md` R71). -/

namespace Sys2Proof

theorem toNat_fieldClass (w : Word) : (fieldClass w).toNat = w.toNat / 4096 := by
  have := w.isLt
  simp [fieldClass, BitVec.extractLsb'_toNat, Nat.shiftRight_eq_div_pow]
  omega

theorem toNat_fieldX (w : Word) : (fieldX w).toNat = w.toNat / 256 % 16 := by
  simp [fieldX, BitVec.extractLsb'_toNat, Nat.shiftRight_eq_div_pow]

theorem toNat_fieldY (w : Word) : (fieldY w).toNat = w.toNat / 16 % 16 := by
  simp [fieldY, BitVec.extractLsb'_toNat, Nat.shiftRight_eq_div_pow]

theorem toNat_fieldN (w : Word) : (fieldN w).toNat = w.toNat % 16 := by
  simp [fieldN, BitVec.extractLsb'_toNat]

theorem toNat_fieldKK (w : Word) : (fieldKK w).toNat = w.toNat % 256 := by
  simp [fieldKK, BitVec.extractLsb'_toNat]

theorem toNat_fieldNNN (w : Word) : (fieldNNN w).toNat = w.toNat % 4096 := by
  simp [fieldNNN, BitVec.extractLsb'_toNat]

/-! The word of a format, as a number. -/

/-- Two fields side by side, as a number (`00_scope.md` R7, `a ++ b`). -/
theorem toNat_sideBySide {m k : Nat} (a : BitVec m) (b : BitVec k) : (a ++ b).toNat = a.toNat * 2 ^ k + b.toNat := by
  rw [BitVec.toNat_append, ← Nat.shiftLeft_eq]
  exact (Nat.shiftLeft_add_eq_or_of_lt b.isLt _).symm

theorem toNat_classNnn (c : Nibble) (a : Addr) : (c ++ a : Word).toNat = c.toNat * 4096 + a.toNat :=
  toNat_sideBySide c a

theorem toNat_classXkk (c x : Nibble) (b : Byte) :
    (c ++ x ++ b : Word).toNat = c.toNat * 4096 + x.toNat * 256 + b.toNat := by
  have h : (c ++ x ++ b : Word).toNat = (c ++ x).toNat * 2 ^ 8 + b.toNat := toNat_sideBySide (c ++ x) b
  rw [h, toNat_sideBySide]
  omega

theorem toNat_classXyn (c x y n : Nibble) :
    (c ++ x ++ y ++ n : Word).toNat = c.toNat * 4096 + x.toNat * 256 + y.toNat * 16 + n.toNat := by
  have h : (c ++ x ++ y ++ n : Word).toNat = (c ++ x ++ y).toNat * 2 ^ 4 + n.toNat :=
    toNat_sideBySide (c ++ x ++ y) n
  rw [h, toNat_sideBySide, toNat_sideBySide]
  omega

/-! The fields of a word of each format. -/

theorem fieldClass_nnn (c : Nibble) (a : Addr) : fieldClass (c ++ a : Word) = c := by
  have := a.isLt
  apply BitVec.eq_of_toNat_eq
  rw [toNat_fieldClass, toNat_classNnn]
  omega

theorem fieldNNN_nnn (c : Nibble) (a : Addr) : fieldNNN (c ++ a : Word) = a := by
  have := a.isLt
  apply BitVec.eq_of_toNat_eq
  rw [toNat_fieldNNN, toNat_classNnn]
  omega

theorem fieldClass_xkk (c x : Nibble) (b : Byte) : fieldClass (c ++ x ++ b : Word) = c := by
  have := x.isLt
  have := b.isLt
  apply BitVec.eq_of_toNat_eq
  rw [toNat_fieldClass, toNat_classXkk]
  omega

theorem fieldX_xkk (c x : Nibble) (b : Byte) : fieldX (c ++ x ++ b : Word) = x := by
  have := x.isLt
  have := b.isLt
  apply BitVec.eq_of_toNat_eq
  rw [toNat_fieldX, toNat_classXkk]
  omega

theorem fieldKK_xkk (c x : Nibble) (b : Byte) : fieldKK (c ++ x ++ b : Word) = b := by
  have := b.isLt
  apply BitVec.eq_of_toNat_eq
  rw [toNat_fieldKK, toNat_classXkk]
  omega

theorem fieldClass_xyn (c x y n : Nibble) : fieldClass (c ++ x ++ y ++ n : Word) = c := by
  have := x.isLt
  have := y.isLt
  have := n.isLt
  apply BitVec.eq_of_toNat_eq
  rw [toNat_fieldClass, toNat_classXyn]
  omega

theorem fieldX_xyn (c x y n : Nibble) : fieldX (c ++ x ++ y ++ n : Word) = x := by
  have := x.isLt
  have := y.isLt
  have := n.isLt
  apply BitVec.eq_of_toNat_eq
  rw [toNat_fieldX, toNat_classXyn]
  omega

theorem fieldY_xyn (c x y n : Nibble) : fieldY (c ++ x ++ y ++ n : Word) = y := by
  have := y.isLt
  have := n.isLt
  apply BitVec.eq_of_toNat_eq
  rw [toNat_fieldY, toNat_classXyn]
  omega

theorem fieldN_xyn (c x y n : Nibble) : fieldN (c ++ x ++ y ++ n : Word) = n := by
  have := n.isLt
  apply BitVec.eq_of_toNat_eq
  rw [toNat_fieldN, toNat_classXyn]
  omega

/-! A word is put together from its fields. -/

theorem word_of_nnn (w : Word) : (fieldClass w ++ fieldNNN w : Word) = w := by
  have := w.isLt
  apply BitVec.eq_of_toNat_eq
  rw [toNat_classNnn, toNat_fieldClass, toNat_fieldNNN]
  omega

theorem word_of_xkk (w : Word) : (fieldClass w ++ fieldX w ++ fieldKK w : Word) = w := by
  have := w.isLt
  apply BitVec.eq_of_toNat_eq
  rw [toNat_classXkk, toNat_fieldClass, toNat_fieldX, toNat_fieldKK]
  omega

theorem word_of_xyn (w : Word) : (fieldClass w ++ fieldX w ++ fieldY w ++ fieldN w : Word) = w := by
  have := w.isLt
  apply BitVec.eq_of_toNat_eq
  rw [toNat_classXyn, toNat_fieldClass, toNat_fieldX, toNat_fieldY, toNat_fieldN]
  omega

/-! The masks of the opcode map test whole fields (`30_encoding.md` R77). -/

theorem class_of_masked (w m : Word) (h : w &&& 0xF000 = m) : fieldClass w = fieldClass m := by
  subst h
  unfold fieldClass
  ext i hi
  match i, hi with
  | 0, _ | 1, _ | 2, _ | 3, _ => simp

theorem classLow_of_masked (w m : Word) (h : w &&& 0xF00F = m) : fieldClass w = fieldClass m ∧ fieldN w = fieldN m := by
  subst h
  unfold fieldClass fieldN
  constructor <;> ext i hi <;> match i, hi with
    | 0, _ | 1, _ | 2, _ | 3, _ => simp

theorem classByte_of_masked (w m : Word) (h : w &&& 0xF0FF = m) :
    fieldClass w = fieldClass m ∧ fieldKK w = fieldKK m := by
  subst h
  unfold fieldClass fieldKK
  refine ⟨?_, ?_⟩
  · ext i hi
    match i, hi with
    | 0, _ | 1, _ | 2, _ | 3, _ => simp
  · ext i hi
    match i, hi with
    | 0, _ | 1, _ | 2, _ | 3, _ | 4, _ | 5, _ | 6, _ | 7, _ => simp

/-! The masks on a word put together from its fields: the fields they keep stay, the others become 0. -/

theorem and_sideBySide {m k : Nat} (a c : BitVec m) (b d : BitVec k) :
    (a ++ b) &&& (c ++ d) = (a &&& c) ++ (b &&& d) := by
  apply BitVec.eq_of_getLsbD_eq
  intro i hi
  simp only [BitVec.getLsbD_and, BitVec.getLsbD_append]
  split <;> simp

theorem nibble_and_ones (c : Nibble) : c &&& 0xF = c := by
  revert c
  decide

theorem byte_and_ones (b : Byte) : b &&& 0xFF = b := by
  revert b
  decide

theorem and_zeros {m : Nat} (b : BitVec m) : b &&& 0 = 0#m := BitVec.and_zero

theorem mask_nnn (c : Nibble) (a : Addr) : (c ++ a : Word) &&& 0xF000 = c ++ 0#12 := by
  have h : (c ++ a : Word) &&& (0xF#4 ++ 0#12 : Word) = (c &&& 0xF) ++ (a &&& 0) := and_sideBySide c 0xF a 0
  rw [show (0xF000 : Word) = 0xF#4 ++ 0#12 by rfl, h, nibble_and_ones, and_zeros]

theorem mask_xkk (c x : Nibble) (b : Byte) : (c ++ x ++ b : Word) &&& 0xF000 = c ++ 0#4 ++ 0#8 := by
  have h : (c ++ x ++ b : Word) &&& (0xF#4 ++ 0#4 ++ 0#8 : Word) = ((c &&& 0xF) ++ (x &&& 0)) ++ (b &&& 0) := by
    rw [← and_sideBySide]
    exact and_sideBySide (c ++ x) (0xF#4 ++ 0#4) b 0
  rw [show (0xF000 : Word) = 0xF#4 ++ 0#4 ++ 0#8 by rfl, h, nibble_and_ones, and_zeros, and_zeros]

theorem mask_xyn (c x y n : Nibble) : (c ++ x ++ y ++ n : Word) &&& 0xF000 = c ++ 0#4 ++ 0#4 ++ 0#4 := by
  have h : (c ++ x ++ y ++ n : Word) &&& (0xF#4 ++ 0#4 ++ 0#4 ++ 0#4 : Word) =
      (((c &&& 0xF) ++ (x &&& 0)) ++ (y &&& 0)) ++ (n &&& 0) := by
    rw [← and_sideBySide, ← and_sideBySide]
    exact and_sideBySide (c ++ x ++ y) (0xF#4 ++ 0#4 ++ 0#4) n 0
  rw [show (0xF000 : Word) = 0xF#4 ++ 0#4 ++ 0#4 ++ 0#4 by rfl, h, nibble_and_ones, and_zeros, and_zeros,
    and_zeros]

theorem maskLow_xyn (c x y n : Nibble) : (c ++ x ++ y ++ n : Word) &&& 0xF00F = c ++ 0#4 ++ 0#4 ++ n := by
  have h : (c ++ x ++ y ++ n : Word) &&& (0xF#4 ++ 0#4 ++ 0#4 ++ 0xF#4 : Word) =
      (((c &&& 0xF) ++ (x &&& 0)) ++ (y &&& 0)) ++ (n &&& 0xF) := by
    rw [← and_sideBySide, ← and_sideBySide]
    exact and_sideBySide (c ++ x ++ y) (0xF#4 ++ 0#4 ++ 0#4) n 0xF
  rw [show (0xF00F : Word) = 0xF#4 ++ 0#4 ++ 0#4 ++ 0xF#4 by rfl, h, nibble_and_ones, nibble_and_ones,
    and_zeros, and_zeros]

theorem maskByte_xkk (c x : Nibble) (b : Byte) : (c ++ x ++ b : Word) &&& 0xF0FF = c ++ 0#4 ++ b := by
  have h : (c ++ x ++ b : Word) &&& (0xF#4 ++ 0#4 ++ 0xFF#8 : Word) =
      ((c &&& 0xF) ++ (x &&& 0)) ++ (b &&& 0xFF) := by
    rw [← and_sideBySide]
    exact and_sideBySide (c ++ x) (0xF#4 ++ 0#4) b 0xFF
  rw [show (0xF0FF : Word) = 0xF#4 ++ 0#4 ++ 0xFF#8 by rfl, h, nibble_and_ones, byte_and_ones, and_zeros]

/-! All the decoder can answer, level by level (`30_encoding.md` R74, R75). -/

theorem decodeClass0_cases (w : Word) :
    (fieldKK w = 0xE0#8 ∧ decodeClass0 w = .insn (.cls (fieldX w))) ∨
    (fieldKK w = 0xEE#8 ∧ decodeClass0 w = .insn (.ret (fieldX w))) ∨
    (fieldKK w ≠ 0xE0#8 ∧ fieldKK w ≠ 0xEE#8 ∧
      decodeClass0 w = .unknown w) := by
  unfold decodeClass0
  generalize fieldKK w = k
  by_cases h0 : k = 0xE0#8
  · simp [h0]
  by_cases h1 : k = 0xEE#8
  · simp [h1]
  simp [h0, h1]

theorem decodeClass8_cases (w : Word) :
    (fieldN w = 0x0#4 ∧ decodeClass8 w = .insn (.ldReg (fieldX w) (fieldY w))) ∨
    (fieldN w = 0x1#4 ∧ decodeClass8 w = .insn (.orReg (fieldX w) (fieldY w))) ∨
    (fieldN w = 0x2#4 ∧ decodeClass8 w = .insn (.andReg (fieldX w) (fieldY w))) ∨
    (fieldN w = 0x3#4 ∧ decodeClass8 w = .insn (.xorReg (fieldX w) (fieldY w))) ∨
    (fieldN w = 0x4#4 ∧ decodeClass8 w = .insn (.addReg (fieldX w) (fieldY w))) ∨
    (fieldN w = 0x5#4 ∧ decodeClass8 w = .insn (.subReg (fieldX w) (fieldY w))) ∨
    (fieldN w = 0x6#4 ∧ decodeClass8 w = .insn (.shr (fieldX w) (fieldY w))) ∨
    (fieldN w = 0x7#4 ∧ decodeClass8 w = .insn (.subnReg (fieldX w) (fieldY w))) ∨
    (fieldN w = 0xE#4 ∧ decodeClass8 w = .insn (.shl (fieldX w) (fieldY w))) ∨
    (fieldN w ≠ 0x0#4 ∧ fieldN w ≠ 0x1#4 ∧ fieldN w ≠ 0x2#4 ∧ fieldN w ≠ 0x3#4 ∧ fieldN w ≠ 0x4#4 ∧
      fieldN w ≠ 0x5#4 ∧ fieldN w ≠ 0x6#4 ∧ fieldN w ≠ 0x7#4 ∧ fieldN w ≠ 0xE#4 ∧
      decodeClass8 w = .unknown w) := by
  unfold decodeClass8
  generalize fieldN w = k
  by_cases h0 : k = 0x0#4
  · simp [h0]
  by_cases h1 : k = 0x1#4
  · simp [h1]
  by_cases h2 : k = 0x2#4
  · simp [h2]
  by_cases h3 : k = 0x3#4
  · simp [h3]
  by_cases h4 : k = 0x4#4
  · simp [h4]
  by_cases h5 : k = 0x5#4
  · simp [h5]
  by_cases h6 : k = 0x6#4
  · simp [h6]
  by_cases h7 : k = 0x7#4
  · simp [h7]
  by_cases h8 : k = 0xE#4
  · simp [h8]
  simp [h0, h1, h2, h3, h4, h5, h6, h7, h8]

theorem decodeClassE_cases (w : Word) :
    (fieldKK w = 0x9E#8 ∧ decodeClassE w = .insn (.skp (fieldX w))) ∨
    (fieldKK w = 0xA1#8 ∧ decodeClassE w = .insn (.sknp (fieldX w))) ∨
    (fieldKK w ≠ 0x9E#8 ∧ fieldKK w ≠ 0xA1#8 ∧
      decodeClassE w = .unknown w) := by
  unfold decodeClassE
  generalize fieldKK w = k
  by_cases h0 : k = 0x9E#8
  · simp [h0]
  by_cases h1 : k = 0xA1#8
  · simp [h1]
  simp [h0, h1]

theorem decodeClassF_cases (w : Word) :
    (fieldKK w = 0x7#8 ∧ decodeClassF w = .insn (.ldVxDt (fieldX w))) ∨
    (fieldKK w = 0xA#8 ∧ decodeClassF w = .insn (.ldVxK (fieldX w))) ∨
    (fieldKK w = 0x15#8 ∧ decodeClassF w = .insn (.ldDtVx (fieldX w))) ∨
    (fieldKK w = 0x18#8 ∧ decodeClassF w = .insn (.ldStVx (fieldX w))) ∨
    (fieldKK w = 0x1E#8 ∧ decodeClassF w = .insn (.addI (fieldX w))) ∨
    (fieldKK w = 0x29#8 ∧ decodeClassF w = .insn (.ldF (fieldX w))) ∨
    (fieldKK w = 0x33#8 ∧ decodeClassF w = .insn (.ldB (fieldX w))) ∨
    (fieldKK w = 0x55#8 ∧ decodeClassF w = .insn (.ldMemVx (fieldX w))) ∨
    (fieldKK w = 0x65#8 ∧ decodeClassF w = .insn (.ldVxMem (fieldX w))) ∨
    (fieldKK w ≠ 0x7#8 ∧ fieldKK w ≠ 0xA#8 ∧ fieldKK w ≠ 0x15#8 ∧ fieldKK w ≠ 0x18#8 ∧ fieldKK w ≠ 0x1E#8 ∧
      fieldKK w ≠ 0x29#8 ∧ fieldKK w ≠ 0x33#8 ∧ fieldKK w ≠ 0x55#8 ∧ fieldKK w ≠ 0x65#8 ∧
      decodeClassF w = .unknown w) := by
  unfold decodeClassF
  generalize fieldKK w = k
  by_cases h0 : k = 0x7#8
  · simp [h0]
  by_cases h1 : k = 0xA#8
  · simp [h1]
  by_cases h2 : k = 0x15#8
  · simp [h2]
  by_cases h3 : k = 0x18#8
  · simp [h3]
  by_cases h4 : k = 0x1E#8
  · simp [h4]
  by_cases h5 : k = 0x29#8
  · simp [h5]
  by_cases h6 : k = 0x33#8
  · simp [h6]
  by_cases h7 : k = 0x55#8
  · simp [h7]
  by_cases h8 : k = 0x65#8
  · simp [h8]
  simp [h0, h1, h2, h3, h4, h5, h6, h7, h8]

theorem nibble_cases (c : Nibble) : c = 0x0#4 ∨ c = 0x1#4 ∨ c = 0x2#4 ∨ c = 0x3#4 ∨ c = 0x4#4 ∨ c = 0x5#4 ∨
      c = 0x6#4 ∨ c = 0x7#4 ∨ c = 0x8#4 ∨ c = 0x9#4 ∨ c = 0xA#4 ∨ c = 0xB#4 ∨ c = 0xC#4 ∨ c = 0xD#4 ∨ c = 0xE#4 ∨
      c = 0xF#4 := by
  revert c
  decide

theorem decode_cases (w : Word) :
    (fieldClass w = 0x0#4 ∧ decode w = decodeClass0 w) ∨
    (fieldClass w = 0x1#4 ∧ decode w = .insn (.jp (fieldNNN w))) ∨
    (fieldClass w = 0x2#4 ∧ decode w = .insn (.call (fieldNNN w))) ∨
    (fieldClass w = 0x3#4 ∧ decode w = .insn (.seImm (fieldX w) (fieldKK w))) ∨
    (fieldClass w = 0x4#4 ∧ decode w = .insn (.sneImm (fieldX w) (fieldKK w))) ∨
    (fieldClass w = 0x5#4 ∧ decode w = .insn (.seReg (fieldX w) (fieldY w) (fieldN w))) ∨
    (fieldClass w = 0x6#4 ∧ decode w = .insn (.ldImm (fieldX w) (fieldKK w))) ∨
    (fieldClass w = 0x7#4 ∧ decode w = .insn (.addImm (fieldX w) (fieldKK w))) ∨
    (fieldClass w = 0x8#4 ∧ decode w = decodeClass8 w) ∨
    (fieldClass w = 0x9#4 ∧ decode w = .insn (.sneReg (fieldX w) (fieldY w) (fieldN w))) ∨
    (fieldClass w = 0xA#4 ∧ decode w = .insn (.ldI (fieldNNN w))) ∨
    (fieldClass w = 0xB#4 ∧ decode w = .insn (.jpV0 (fieldNNN w))) ∨
    (fieldClass w = 0xC#4 ∧ decode w = .insn (.rnd (fieldX w) (fieldKK w))) ∨
    (fieldClass w = 0xD#4 ∧ decode w = .insn (.drw (fieldX w) (fieldY w) (fieldN w))) ∨
    (fieldClass w = 0xE#4 ∧ decode w = decodeClassE w) ∨
    (fieldClass w = 0xF#4 ∧ decode w = decodeClassF w) := by
  rcases nibble_cases (fieldClass w) with h | h | h | h | h | h | h | h | h | h | h | h | h | h | h | h <;> simp [decode, h]

/-- The bytes of a word, put together again high byte first (`20_memory.md` R52). -/
theorem wordOfBytes_split (w : Word) : wordOfBytes (highByte w) (lowByte w) = w := by
  have := w.isLt
  apply BitVec.eq_of_toNat_eq
  have h : (wordOfBytes (highByte w) (lowByte w)).toNat = (highByte w).toNat * 2 ^ 8 + (lowByte w).toNat :=
    toNat_sideBySide (highByte w) (lowByte w)
  rw [h]
  simp [highByte, lowByte, BitVec.extractLsb'_toNat, Nat.shiftRight_eq_div_pow]
  omega

end Sys2Proof
end

