-- ==== Sys2Proof/Laws/Memory.lean ====
section
/-! SUPPORT. The laws of memory: reads see the latest write, and every operation keeps the canonical form. -/

namespace Sys2Proof.Machine

/-- Reset memory is canonical. -/
theorem Memory.wf_reset : Memory.wf State.reset.mem := ⟨List.Pairwise.nil, by simp [State.reset]⟩

/-- An address with no cell reads as its reset byte. -/
theorem Memory.read_unlisted (m : Memory) (a : Nat) (h : ∀ c ∈ m, c.1 ≠ a) : Memory.read m a = resetByte a := by
  induction m with
  | nil => rfl
  | cons c rest ih =>
    have hc := h c (by simp)
    simp only [Memory.read, hc, if_false]
    exact ih fun d hd => h d (by simp [hd])

theorem Memory.read_consCell (a : Nat) (b : Byte) (m : Memory) (h : ∀ c ∈ m, a < c.1) (a' : Nat) :
    Memory.read (Memory.consCell a b m) a' = if a' = a then b else Memory.read m a' := by
  unfold Memory.consCell
  by_cases hb : b = resetByte a
  · rw [if_pos hb]
    by_cases ha : a' = a
    · rw [if_pos ha, ha, Memory.read_unlisted m a (fun c hc => by have := h c hc; omega), hb]
    · rw [if_neg ha]
  · rw [if_neg hb]
    simp only [Memory.read, eq_comm]

/-- A read after `put` (`20_memory.md` R61). -/
theorem Memory.read_put (m : Memory) (hm : m.Pairwise (fun c d => c.1 < d.1)) (a : Nat) (b : Byte) (a' : Nat) :
    Memory.read (Memory.put m a b) a' = if a' = a then b else Memory.read m a' := by
  induction m with
  | nil => exact Memory.read_consCell a b [] (by simp) a'
  | cons c rest ih =>
    obtain ⟨hc, hrest⟩ := List.pairwise_cons.mp hm
    simp only [Memory.put]
    split
    · rename_i hlt
      refine Memory.read_consCell a b (c :: rest) ?_ a'
      intro d hd
      rcases List.mem_cons.mp hd with rfl | hd
      · exact hlt
      · exact Nat.lt_trans hlt (hc d hd)
    · split
      · rename_i hnlt heq
        rw [Memory.read_consCell a b rest (fun d hd => heq ▸ hc d hd) a']
        by_cases ha : a' = a
        · simp [ha]
        · have : c.1 ≠ a' := by omega
          simp [ha, Memory.read, this]
      · rename_i hnlt hne
        simp only [Memory.read, ih hrest]
        by_cases ha : a' = a
        · have : c.1 ≠ a' := by omega
          simp [ha]
          intro h; omega
        · simp [ha]

/-- A read after `write`, at every address of memory and outside it (`20_memory.md` R61). -/
theorem Memory.read_write (m : Memory) (hm : Memory.wf m) (a : Nat) (b : Byte) (a' : Nat) :
    Memory.read (Memory.write m a b) a' = if a' = a ∧ a < memSize then b else Memory.read m a' := by
  unfold Memory.write
  by_cases ha : a < memSize
  · simp [ha, Memory.read_put m hm.1]
  · simp [ha]

theorem Memory.mem_put (m : Memory) (a : Nat) (b : Byte) (c : Host.Cell) (hc : c ∈ Memory.put m a b) :
    c = (a, b) ∧ b ≠ resetByte a ∨ c ∈ m := by
  have cons (k : Memory) (h : c ∈ Memory.consCell a b k) : c = (a, b) ∧ b ≠ resetByte a ∨ c ∈ k := by
    unfold Memory.consCell at h
    split at h
    · exact .inr h
    · rcases List.mem_cons.mp h with h | h
      · exact .inl ⟨h, by assumption⟩
      · exact .inr h
  induction m with
  | nil => exact cons [] hc
  | cons d rest ih =>
    simp only [Memory.put] at hc
    split at hc
    · exact cons _ hc
    · split at hc
      · exact (cons _ hc).imp_right fun h => by simp [h]
      · rcases List.mem_cons.mp hc with h | h
        · simp [h]
        · exact (ih h).imp_right fun h => by simp [h]

/-- `write` keeps the canonical form. -/
theorem Memory.wf_write (m : Memory) (hm : Memory.wf m) (a : Nat) (b : Byte) : Memory.wf (Memory.write m a b) := by
  unfold Memory.write
  split
  · rename_i ha
    refine ⟨?_, fun c hc => ?_⟩
    · have cons (k : Memory) (hk : k.Pairwise (fun c d => c.1 < d.1)) (h : ∀ c ∈ k, a < c.1) :
          (Memory.consCell a b k).Pairwise (fun c d => c.1 < d.1) := by
        unfold Memory.consCell
        split
        · exact hk
        · exact List.pairwise_cons.mpr ⟨h, hk⟩
      have key : ∀ k : Memory, k.Pairwise (fun c d => c.1 < d.1) →
          (Memory.put k a b).Pairwise (fun c d => c.1 < d.1) := by
        intro k
        induction k with
        | nil => intro _; exact cons [] List.Pairwise.nil (by simp)
        | cons d rest ih =>
          intro hk
          obtain ⟨hd, hrest⟩ := List.pairwise_cons.mp hk
          simp only [Memory.put]
          split
          · rename_i hlt
            refine cons _ hk fun c hc => ?_
            rcases List.mem_cons.mp hc with rfl | hc
            · exact hlt
            · exact Nat.lt_trans hlt (hd c hc)
          · split
            · rename_i heq
              exact cons _ hrest fun c hc => heq ▸ hd c hc
            · refine List.pairwise_cons.mpr ⟨fun c hc => ?_, ih hrest⟩
              rcases Memory.mem_put rest a b c hc with ⟨rfl, -⟩ | hc
              · show d.1 < a
                omega
              · exact hd c hc
      exact key m hm.1
    · rcases Memory.mem_put m a b c hc with ⟨rfl, h⟩ | h
      · exact ⟨ha, h⟩
      · exact hm.2 c h
  · exact hm

/-- A write outside memory does nothing (`20_memory.md` R59). -/
theorem Memory.write_outside (m : Memory) (a : Nat) (b : Byte) (h : memSize ≤ a) : Memory.write m a b = m := by
  simp [Memory.write, Nat.not_lt.mpr h]

@[simp] theorem Memory.length_readBytes (m : Memory) (a count : Nat) : (Memory.readBytes m a count).length = count := by
  induction count generalizing a with
  | zero => rfl
  | succ n ih => simp [Memory.readBytes, ih]

/-- The k-th byte read from `a` on is the byte at `a + k` (`20_memory.md` R53). -/
theorem Memory.getElem_readBytes (m : Memory) (a count k : Nat) (h : k < count) :
    (Memory.readBytes m a count)[k]? = some (Memory.read m (a + k)) := by
  induction count generalizing a k with
  | zero => omega
  | succ n ih =>
    cases k with
    | zero => simp [Memory.readBytes]
    | succ j => simp [Memory.readBytes, ih (a + 1) j (by omega), Nat.add_assoc, Nat.add_comm 1]

/-- `writeBytes` keeps the canonical form. -/
theorem Memory.wf_writeBytes (m : Memory) (hm : Memory.wf m) (a : Nat) (bytes : List Byte) :
    Memory.wf (Memory.writeBytes m a bytes) := by
  induction bytes generalizing m a with
  | nil => exact hm
  | cons b rest ih => exact ih _ (Memory.wf_write m hm a b) _

/-- A read after `writeBytes`: inside the stored range its byte, elsewhere what was there. -/
theorem Memory.read_writeBytes (m : Memory) (hm : Memory.wf m) (a : Nat) (bytes : List Byte)
    (h : a + bytes.length ≤ memSize) (a' : Nat) :
    Memory.read (Memory.writeBytes m a bytes) a' =
      if a ≤ a' ∧ a' < a + bytes.length then bytes.getD (a' - a) 0 else Memory.read m a' := by
  induction bytes generalizing m a with
  | nil => rw [Memory.writeBytes, if_neg (by simp only [List.length_nil]; omega)]
  | cons b rest ih =>
    simp only [List.length_cons] at h
    simp only [Memory.writeBytes, List.length_cons]
    rw [ih _ (Memory.wf_write m hm a b) (a + 1) (by omega), Memory.read_write m hm]
    have hlt : a < memSize := by omega
    by_cases h1 : a' = a
    · subst h1
      rw [if_neg (by omega), if_pos ⟨rfl, hlt⟩, if_pos (by omega), Nat.sub_self]
      rfl
    · by_cases h2 : a + 1 ≤ a' ∧ a' < a + 1 + rest.length
      · have h3 : a ≤ a' ∧ a' < a + (rest.length + 1) := by omega
        have h4 : a' - a = (a' - (a + 1)) + 1 := by omega
        rw [if_pos h2, if_pos h3, h4]
        simp
      · have h3 : ¬ (a ≤ a' ∧ a' < a + (rest.length + 1)) := by omega
        rw [if_neg h2, if_neg (by simp [h1]), if_neg h3]

/-- `writeBytes` never touches an address outside the stored range, whatever the range. -/
theorem Memory.read_writeBytes_outside (m : Memory) (hm : Memory.wf m) (a : Nat) (bytes : List Byte) (a' : Nat)
    (h : a' < a ∨ a + bytes.length ≤ a') : Memory.read (Memory.writeBytes m a bytes) a' = Memory.read m a' := by
  induction bytes generalizing m a with
  | nil => rfl
  | cons b rest ih =>
    simp only [List.length_cons] at h
    simp only [Memory.writeBytes]
    rw [ih _ (Memory.wf_write m hm a b) (a + 1) (by omega), Memory.read_write m hm]
    have : a' ≠ a := by omega
    simp [this]

end Sys2Proof.Machine
end

