-- ==== Sys2Proof/Laws/State.lean ====
section
/-! SUPPORT. What each named update of State leaves in each field, and how register reads see the updates. -/

namespace Sys2Proof.Machine

variable (s : State)

/-! ## setV -/

@[simp] theorem State.setV_mem (x : Nibble) (b : Byte) : (s.setV x b).mem = s.mem := rfl
@[simp] theorem State.setV_v (x : Nibble) (b : Byte) : (s.setV x b).v = s.v.set x.toNat b x.isLt := rfl
@[simp] theorem State.setV_i (x : Nibble) (b : Byte) : (s.setV x b).i = s.i := rfl
@[simp] theorem State.setV_pc (x : Nibble) (b : Byte) : (s.setV x b).pc = s.pc := rfl
@[simp] theorem State.setV_stack (x : Nibble) (b : Byte) : (s.setV x b).stack = s.stack := rfl
@[simp] theorem State.setV_dt (x : Nibble) (b : Byte) : (s.setV x b).dt = s.dt := rfl
@[simp] theorem State.setV_st (x : Nibble) (b : Byte) : (s.setV x b).st = s.st := rfl
@[simp] theorem State.setV_fb (x : Nibble) (b : Byte) : (s.setV x b).fb = s.fb := rfl
@[simp] theorem State.setV_key (x : Nibble) (b : Byte) : (s.setV x b).key = s.key := rfl
@[simp] theorem State.setV_redraw (x : Nibble) (b : Byte) : (s.setV x b).redraw = s.redraw := rfl
@[simp] theorem State.setV_draws (x : Nibble) (b : Byte) : (s.setV x b).draws = s.draws := rfl
@[simp] theorem State.setV_schedule (x : Nibble) (b : Byte) : (s.setV x b).schedule = s.schedule := rfl
@[simp] theorem State.setV_hostRest (x : Nibble) (b : Byte) : (s.setV x b).hostRest = s.hostRest := rfl
@[simp] theorem State.setV_reply (x : Nibble) (b : Byte) : (s.setV x b).reply = s.reply := rfl
@[simp] theorem State.setV_font (x : Nibble) (b : Byte) : (s.setV x b).font = s.font := rfl

/-! ## setI -/

@[simp] theorem State.setI_mem (a : Addr) : (s.setI a).mem = s.mem := rfl
@[simp] theorem State.setI_v (a : Addr) : (s.setI a).v = s.v := rfl
@[simp] theorem State.setI_i (a : Addr) : (s.setI a).i = a := rfl
@[simp] theorem State.setI_pc (a : Addr) : (s.setI a).pc = s.pc := rfl
@[simp] theorem State.setI_stack (a : Addr) : (s.setI a).stack = s.stack := rfl
@[simp] theorem State.setI_dt (a : Addr) : (s.setI a).dt = s.dt := rfl
@[simp] theorem State.setI_st (a : Addr) : (s.setI a).st = s.st := rfl
@[simp] theorem State.setI_fb (a : Addr) : (s.setI a).fb = s.fb := rfl
@[simp] theorem State.setI_key (a : Addr) : (s.setI a).key = s.key := rfl
@[simp] theorem State.setI_redraw (a : Addr) : (s.setI a).redraw = s.redraw := rfl
@[simp] theorem State.setI_draws (a : Addr) : (s.setI a).draws = s.draws := rfl
@[simp] theorem State.setI_schedule (a : Addr) : (s.setI a).schedule = s.schedule := rfl
@[simp] theorem State.setI_hostRest (a : Addr) : (s.setI a).hostRest = s.hostRest := rfl
@[simp] theorem State.setI_reply (a : Addr) : (s.setI a).reply = s.reply := rfl
@[simp] theorem State.setI_font (a : Addr) : (s.setI a).font = s.font := rfl

/-! ## setPc -/

@[simp] theorem State.setPc_mem (a : Word) : (s.setPc a).mem = s.mem := rfl
@[simp] theorem State.setPc_v (a : Word) : (s.setPc a).v = s.v := rfl
@[simp] theorem State.setPc_i (a : Word) : (s.setPc a).i = s.i := rfl
@[simp] theorem State.setPc_pc (a : Word) : (s.setPc a).pc = a := rfl
@[simp] theorem State.setPc_stack (a : Word) : (s.setPc a).stack = s.stack := rfl
@[simp] theorem State.setPc_dt (a : Word) : (s.setPc a).dt = s.dt := rfl
@[simp] theorem State.setPc_st (a : Word) : (s.setPc a).st = s.st := rfl
@[simp] theorem State.setPc_fb (a : Word) : (s.setPc a).fb = s.fb := rfl
@[simp] theorem State.setPc_key (a : Word) : (s.setPc a).key = s.key := rfl
@[simp] theorem State.setPc_redraw (a : Word) : (s.setPc a).redraw = s.redraw := rfl
@[simp] theorem State.setPc_draws (a : Word) : (s.setPc a).draws = s.draws := rfl
@[simp] theorem State.setPc_schedule (a : Word) : (s.setPc a).schedule = s.schedule := rfl
@[simp] theorem State.setPc_hostRest (a : Word) : (s.setPc a).hostRest = s.hostRest := rfl
@[simp] theorem State.setPc_reply (a : Word) : (s.setPc a).reply = s.reply := rfl
@[simp] theorem State.setPc_font (a : Word) : (s.setPc a).font = s.font := rfl

/-! ## advance -/

@[simp] theorem State.advance_mem : (s.advance).mem = s.mem := rfl
@[simp] theorem State.advance_v : (s.advance).v = s.v := rfl
@[simp] theorem State.advance_i : (s.advance).i = s.i := rfl
@[simp] theorem State.advance_pc : (s.advance).pc = s.pc + 2 := rfl
@[simp] theorem State.advance_stack : (s.advance).stack = s.stack := rfl
@[simp] theorem State.advance_dt : (s.advance).dt = s.dt := rfl
@[simp] theorem State.advance_st : (s.advance).st = s.st := rfl
@[simp] theorem State.advance_fb : (s.advance).fb = s.fb := rfl
@[simp] theorem State.advance_key : (s.advance).key = s.key := rfl
@[simp] theorem State.advance_redraw : (s.advance).redraw = s.redraw := rfl
@[simp] theorem State.advance_draws : (s.advance).draws = s.draws := rfl
@[simp] theorem State.advance_schedule : (s.advance).schedule = s.schedule := rfl
@[simp] theorem State.advance_hostRest : (s.advance).hostRest = s.hostRest := rfl
@[simp] theorem State.advance_reply : (s.advance).reply = s.reply := rfl
@[simp] theorem State.advance_font : (s.advance).font = s.font := rfl

/-! ## setDt -/

@[simp] theorem State.setDt_mem (b : Byte) : (s.setDt b).mem = s.mem := rfl
@[simp] theorem State.setDt_v (b : Byte) : (s.setDt b).v = s.v := rfl
@[simp] theorem State.setDt_i (b : Byte) : (s.setDt b).i = s.i := rfl
@[simp] theorem State.setDt_pc (b : Byte) : (s.setDt b).pc = s.pc := rfl
@[simp] theorem State.setDt_stack (b : Byte) : (s.setDt b).stack = s.stack := rfl
@[simp] theorem State.setDt_dt (b : Byte) : (s.setDt b).dt = b := rfl
@[simp] theorem State.setDt_st (b : Byte) : (s.setDt b).st = s.st := rfl
@[simp] theorem State.setDt_fb (b : Byte) : (s.setDt b).fb = s.fb := rfl
@[simp] theorem State.setDt_key (b : Byte) : (s.setDt b).key = s.key := rfl
@[simp] theorem State.setDt_redraw (b : Byte) : (s.setDt b).redraw = s.redraw := rfl
@[simp] theorem State.setDt_draws (b : Byte) : (s.setDt b).draws = s.draws := rfl
@[simp] theorem State.setDt_schedule (b : Byte) : (s.setDt b).schedule = s.schedule := rfl
@[simp] theorem State.setDt_hostRest (b : Byte) : (s.setDt b).hostRest = s.hostRest := rfl
@[simp] theorem State.setDt_reply (b : Byte) : (s.setDt b).reply = s.reply := rfl
@[simp] theorem State.setDt_font (b : Byte) : (s.setDt b).font = s.font := rfl

/-! ## setSt -/

@[simp] theorem State.setSt_mem (b : Byte) : (s.setSt b).mem = s.mem := rfl
@[simp] theorem State.setSt_v (b : Byte) : (s.setSt b).v = s.v := rfl
@[simp] theorem State.setSt_i (b : Byte) : (s.setSt b).i = s.i := rfl
@[simp] theorem State.setSt_pc (b : Byte) : (s.setSt b).pc = s.pc := rfl
@[simp] theorem State.setSt_stack (b : Byte) : (s.setSt b).stack = s.stack := rfl
@[simp] theorem State.setSt_dt (b : Byte) : (s.setSt b).dt = s.dt := rfl
@[simp] theorem State.setSt_st (b : Byte) : (s.setSt b).st = b := rfl
@[simp] theorem State.setSt_fb (b : Byte) : (s.setSt b).fb = s.fb := rfl
@[simp] theorem State.setSt_key (b : Byte) : (s.setSt b).key = s.key := rfl
@[simp] theorem State.setSt_redraw (b : Byte) : (s.setSt b).redraw = s.redraw := rfl
@[simp] theorem State.setSt_draws (b : Byte) : (s.setSt b).draws = s.draws := rfl
@[simp] theorem State.setSt_schedule (b : Byte) : (s.setSt b).schedule = s.schedule := rfl
@[simp] theorem State.setSt_hostRest (b : Byte) : (s.setSt b).hostRest = s.hostRest := rfl
@[simp] theorem State.setSt_reply (b : Byte) : (s.setSt b).reply = s.reply := rfl
@[simp] theorem State.setSt_font (b : Byte) : (s.setSt b).font = s.font := rfl

/-! ## setMem -/

@[simp] theorem State.setMem_mem (m : Memory) : (s.setMem m).mem = m := rfl
@[simp] theorem State.setMem_v (m : Memory) : (s.setMem m).v = s.v := rfl
@[simp] theorem State.setMem_i (m : Memory) : (s.setMem m).i = s.i := rfl
@[simp] theorem State.setMem_pc (m : Memory) : (s.setMem m).pc = s.pc := rfl
@[simp] theorem State.setMem_stack (m : Memory) : (s.setMem m).stack = s.stack := rfl
@[simp] theorem State.setMem_dt (m : Memory) : (s.setMem m).dt = s.dt := rfl
@[simp] theorem State.setMem_st (m : Memory) : (s.setMem m).st = s.st := rfl
@[simp] theorem State.setMem_fb (m : Memory) : (s.setMem m).fb = s.fb := rfl
@[simp] theorem State.setMem_key (m : Memory) : (s.setMem m).key = s.key := rfl
@[simp] theorem State.setMem_redraw (m : Memory) : (s.setMem m).redraw = s.redraw := rfl
@[simp] theorem State.setMem_draws (m : Memory) : (s.setMem m).draws = s.draws := rfl
@[simp] theorem State.setMem_schedule (m : Memory) : (s.setMem m).schedule = s.schedule := rfl
@[simp] theorem State.setMem_hostRest (m : Memory) : (s.setMem m).hostRest = s.hostRest := rfl
@[simp] theorem State.setMem_reply (m : Memory) : (s.setMem m).reply = s.reply := rfl
@[simp] theorem State.setMem_font (m : Memory) : (s.setMem m).font = s.font := rfl

/-! ## setScreen -/

@[simp] theorem State.setScreen_mem (f : FrameBuffer) : (s.setScreen f).mem = s.mem := rfl
@[simp] theorem State.setScreen_v (f : FrameBuffer) : (s.setScreen f).v = s.v := rfl
@[simp] theorem State.setScreen_i (f : FrameBuffer) : (s.setScreen f).i = s.i := rfl
@[simp] theorem State.setScreen_pc (f : FrameBuffer) : (s.setScreen f).pc = s.pc := rfl
@[simp] theorem State.setScreen_stack (f : FrameBuffer) : (s.setScreen f).stack = s.stack := rfl
@[simp] theorem State.setScreen_dt (f : FrameBuffer) : (s.setScreen f).dt = s.dt := rfl
@[simp] theorem State.setScreen_st (f : FrameBuffer) : (s.setScreen f).st = s.st := rfl
@[simp] theorem State.setScreen_fb (f : FrameBuffer) : (s.setScreen f).fb = f := rfl
@[simp] theorem State.setScreen_key (f : FrameBuffer) : (s.setScreen f).key = s.key := rfl
@[simp] theorem State.setScreen_redraw (f : FrameBuffer) : (s.setScreen f).redraw = true := rfl
@[simp] theorem State.setScreen_draws (f : FrameBuffer) : (s.setScreen f).draws = s.draws := rfl
@[simp] theorem State.setScreen_schedule (f : FrameBuffer) : (s.setScreen f).schedule = s.schedule := rfl
@[simp] theorem State.setScreen_hostRest (f : FrameBuffer) : (s.setScreen f).hostRest = s.hostRest := rfl
@[simp] theorem State.setScreen_reply (f : FrameBuffer) : (s.setScreen f).reply = s.reply := rfl
@[simp] theorem State.setScreen_font (f : FrameBuffer) : (s.setScreen f).font = s.font := rfl

/-! ## countDraw -/

@[simp] theorem State.countDraw_mem : (s.countDraw).mem = s.mem := rfl
@[simp] theorem State.countDraw_v : (s.countDraw).v = s.v := rfl
@[simp] theorem State.countDraw_i : (s.countDraw).i = s.i := rfl
@[simp] theorem State.countDraw_pc : (s.countDraw).pc = s.pc := rfl
@[simp] theorem State.countDraw_stack : (s.countDraw).stack = s.stack := rfl
@[simp] theorem State.countDraw_dt : (s.countDraw).dt = s.dt := rfl
@[simp] theorem State.countDraw_st : (s.countDraw).st = s.st := rfl
@[simp] theorem State.countDraw_fb : (s.countDraw).fb = s.fb := rfl
@[simp] theorem State.countDraw_key : (s.countDraw).key = s.key := rfl
@[simp] theorem State.countDraw_redraw : (s.countDraw).redraw = s.redraw := rfl
@[simp] theorem State.countDraw_draws : (s.countDraw).draws = s.draws + 1 := rfl
@[simp] theorem State.countDraw_schedule : (s.countDraw).schedule = s.schedule := rfl
@[simp] theorem State.countDraw_hostRest : (s.countDraw).hostRest = s.hostRest := rfl
@[simp] theorem State.countDraw_reply : (s.countDraw).reply = s.reply := rfl
@[simp] theorem State.countDraw_font : (s.countDraw).font = s.font := rfl

/-! ## setReply -/

@[simp] theorem State.setReply_mem (r : Reply) : (s.setReply r).mem = s.mem := rfl
@[simp] theorem State.setReply_v (r : Reply) : (s.setReply r).v = s.v := rfl
@[simp] theorem State.setReply_i (r : Reply) : (s.setReply r).i = s.i := rfl
@[simp] theorem State.setReply_pc (r : Reply) : (s.setReply r).pc = s.pc := rfl
@[simp] theorem State.setReply_stack (r : Reply) : (s.setReply r).stack = s.stack := rfl
@[simp] theorem State.setReply_dt (r : Reply) : (s.setReply r).dt = s.dt := rfl
@[simp] theorem State.setReply_st (r : Reply) : (s.setReply r).st = s.st := rfl
@[simp] theorem State.setReply_fb (r : Reply) : (s.setReply r).fb = s.fb := rfl
@[simp] theorem State.setReply_key (r : Reply) : (s.setReply r).key = s.key := rfl
@[simp] theorem State.setReply_redraw (r : Reply) : (s.setReply r).redraw = s.redraw := rfl
@[simp] theorem State.setReply_draws (r : Reply) : (s.setReply r).draws = s.draws := rfl
@[simp] theorem State.setReply_schedule (r : Reply) : (s.setReply r).schedule = s.schedule := rfl
@[simp] theorem State.setReply_hostRest (r : Reply) : (s.setReply r).hostRest = s.hostRest := rfl
@[simp] theorem State.setReply_reply (r : Reply) : (s.setReply r).reply = r := rfl
@[simp] theorem State.setReply_font (r : Reply) : (s.setReply r).font = s.font := rfl

/-! ## setFlag -/

@[simp] theorem State.setFlag_mem (f : Bool) : (s.setFlag f).mem = s.mem := rfl
@[simp] theorem State.setFlag_v (f : Bool) : (s.setFlag f).v = s.v.set vf.toNat (flagByte f) vf.isLt := rfl
@[simp] theorem State.setFlag_i (f : Bool) : (s.setFlag f).i = s.i := rfl
@[simp] theorem State.setFlag_pc (f : Bool) : (s.setFlag f).pc = s.pc := rfl
@[simp] theorem State.setFlag_stack (f : Bool) : (s.setFlag f).stack = s.stack := rfl
@[simp] theorem State.setFlag_dt (f : Bool) : (s.setFlag f).dt = s.dt := rfl
@[simp] theorem State.setFlag_st (f : Bool) : (s.setFlag f).st = s.st := rfl
@[simp] theorem State.setFlag_fb (f : Bool) : (s.setFlag f).fb = s.fb := rfl
@[simp] theorem State.setFlag_key (f : Bool) : (s.setFlag f).key = s.key := rfl
@[simp] theorem State.setFlag_redraw (f : Bool) : (s.setFlag f).redraw = s.redraw := rfl
@[simp] theorem State.setFlag_draws (f : Bool) : (s.setFlag f).draws = s.draws := rfl
@[simp] theorem State.setFlag_schedule (f : Bool) : (s.setFlag f).schedule = s.schedule := rfl
@[simp] theorem State.setFlag_hostRest (f : Bool) : (s.setFlag f).hostRest = s.hostRest := rfl
@[simp] theorem State.setFlag_reply (f : Bool) : (s.setFlag f).reply = s.reply := rfl
@[simp] theorem State.setFlag_font (f : Bool) : (s.setFlag f).font = s.font := rfl

/-! ## setResultAndFlag -/

@[simp] theorem State.setResultAndFlag_mem (x : Nibble) (b : Byte) (f : Bool) : (s.setResultAndFlag x b f).mem = s.mem := rfl
@[simp] theorem State.setResultAndFlag_v (x : Nibble) (b : Byte) (f : Bool) : (s.setResultAndFlag x b f).v = (s.v.set x.toNat b x.isLt).set vf.toNat (flagByte f) vf.isLt := rfl
@[simp] theorem State.setResultAndFlag_i (x : Nibble) (b : Byte) (f : Bool) : (s.setResultAndFlag x b f).i = s.i := rfl
@[simp] theorem State.setResultAndFlag_pc (x : Nibble) (b : Byte) (f : Bool) : (s.setResultAndFlag x b f).pc = s.pc := rfl
@[simp] theorem State.setResultAndFlag_stack (x : Nibble) (b : Byte) (f : Bool) : (s.setResultAndFlag x b f).stack = s.stack := rfl
@[simp] theorem State.setResultAndFlag_dt (x : Nibble) (b : Byte) (f : Bool) : (s.setResultAndFlag x b f).dt = s.dt := rfl
@[simp] theorem State.setResultAndFlag_st (x : Nibble) (b : Byte) (f : Bool) : (s.setResultAndFlag x b f).st = s.st := rfl
@[simp] theorem State.setResultAndFlag_fb (x : Nibble) (b : Byte) (f : Bool) : (s.setResultAndFlag x b f).fb = s.fb := rfl
@[simp] theorem State.setResultAndFlag_key (x : Nibble) (b : Byte) (f : Bool) : (s.setResultAndFlag x b f).key = s.key := rfl
@[simp] theorem State.setResultAndFlag_redraw (x : Nibble) (b : Byte) (f : Bool) : (s.setResultAndFlag x b f).redraw = s.redraw := rfl
@[simp] theorem State.setResultAndFlag_draws (x : Nibble) (b : Byte) (f : Bool) : (s.setResultAndFlag x b f).draws = s.draws := rfl
@[simp] theorem State.setResultAndFlag_schedule (x : Nibble) (b : Byte) (f : Bool) : (s.setResultAndFlag x b f).schedule = s.schedule := rfl
@[simp] theorem State.setResultAndFlag_hostRest (x : Nibble) (b : Byte) (f : Bool) : (s.setResultAndFlag x b f).hostRest = s.hostRest := rfl
@[simp] theorem State.setResultAndFlag_reply (x : Nibble) (b : Byte) (f : Bool) : (s.setResultAndFlag x b f).reply = s.reply := rfl
@[simp] theorem State.setResultAndFlag_font (x : Nibble) (b : Byte) (f : Bool) : (s.setResultAndFlag x b f).font = s.font := rfl

/-! ## skipIf -/

@[simp] theorem State.skipIf_mem (c : Bool) : (s.skipIf c).mem = s.mem := by cases c <;> rfl
@[simp] theorem State.skipIf_v (c : Bool) : (s.skipIf c).v = s.v := by cases c <;> rfl
@[simp] theorem State.skipIf_i (c : Bool) : (s.skipIf c).i = s.i := by cases c <;> rfl
@[simp] theorem State.skipIf_pc (c : Bool) : (s.skipIf c).pc = if c then s.pc + 2 else s.pc := by
  cases c <;> rfl
@[simp] theorem State.skipIf_stack (c : Bool) : (s.skipIf c).stack = s.stack := by cases c <;> rfl
@[simp] theorem State.skipIf_dt (c : Bool) : (s.skipIf c).dt = s.dt := by cases c <;> rfl
@[simp] theorem State.skipIf_st (c : Bool) : (s.skipIf c).st = s.st := by cases c <;> rfl
@[simp] theorem State.skipIf_fb (c : Bool) : (s.skipIf c).fb = s.fb := by cases c <;> rfl
@[simp] theorem State.skipIf_key (c : Bool) : (s.skipIf c).key = s.key := by cases c <;> rfl
@[simp] theorem State.skipIf_redraw (c : Bool) : (s.skipIf c).redraw = s.redraw := by cases c <;> rfl
@[simp] theorem State.skipIf_draws (c : Bool) : (s.skipIf c).draws = s.draws := by cases c <;> rfl
@[simp] theorem State.skipIf_schedule (c : Bool) : (s.skipIf c).schedule = s.schedule := by cases c <;> rfl
@[simp] theorem State.skipIf_hostRest (c : Bool) : (s.skipIf c).hostRest = s.hostRest := by cases c <;> rfl
@[simp] theorem State.skipIf_reply (c : Bool) : (s.skipIf c).reply = s.reply := by cases c <;> rfl
@[simp] theorem State.skipIf_font (c : Bool) : (s.skipIf c).font = s.font := by cases c <;> rfl

/-! ## Register reads -/

@[simp] theorem State.getV_setI (a : Addr) (r : Nibble) : (s.setI a).getV r = s.getV r := rfl
@[simp] theorem State.getV_setPc (a : Word) (r : Nibble) : (s.setPc a).getV r = s.getV r := rfl
@[simp] theorem State.getV_advance (r : Nibble) : (s.advance).getV r = s.getV r := rfl
@[simp] theorem State.getV_setDt (b : Byte) (r : Nibble) : (s.setDt b).getV r = s.getV r := rfl
@[simp] theorem State.getV_setSt (b : Byte) (r : Nibble) : (s.setSt b).getV r = s.getV r := rfl
@[simp] theorem State.getV_setMem (m : Memory) (r : Nibble) : (s.setMem m).getV r = s.getV r := rfl
@[simp] theorem State.getV_setScreen (f : FrameBuffer) (r : Nibble) : (s.setScreen f).getV r = s.getV r := rfl
@[simp] theorem State.getV_countDraw (r : Nibble) : (s.countDraw).getV r = s.getV r := rfl
@[simp] theorem State.getV_setReply (r : Reply) (x : Nibble) : (s.setReply r).getV x = s.getV x := rfl
@[simp] theorem State.getV_skipIf (c : Bool) (r : Nibble) : (s.skipIf c).getV r = s.getV r := by cases c <;> rfl

/-- A register read after a register write (`10_state.md` R21). -/
theorem State.getV_setV (x r : Nibble) (b : Byte) : (s.setV x b).getV r = if r = x then b else s.getV r := by
  simp only [State.getV, State.setV, Vector.getElem_set, BitVec.toNat_inj, eq_comm]

@[simp] theorem State.getV_setV_same (x : Nibble) (b : Byte) : (s.setV x b).getV x = b := by
  simp [State.getV_setV]

theorem State.getV_setV_other (x r : Nibble) (b : Byte) (h : r ≠ x) : (s.setV x b).getV r = s.getV r := by
  simp [State.getV_setV, h]

/-- A register read after VF is written as a flag (`10_state.md` R22). -/
theorem State.getV_setFlag (f : Bool) (r : Nibble) :
    (s.setFlag f).getV r = if r = vf then flagByte f else s.getV r := s.getV_setV vf r (flagByte f)

/-- A register read after a result and then the flag: the flag is the later write (`10_state.md` R23). -/
theorem State.getV_setResultAndFlag (x r : Nibble) (b : Byte) (f : Bool) :
    (s.setResultAndFlag x b f).getV r = if r = vf then flagByte f else if r = x then b else s.getV r := by
  rw [State.setResultAndFlag, State.getV_setFlag, State.getV_setV]

/-- Two states whose registers read alike have the same register file. -/
theorem State.v_ext (t : State) (h : ∀ r, s.getV r = t.getV r) : s.v = t.v := by
  refine Vector.ext fun k hk => ?_
  have := h (BitVec.ofNat 4 k)
  simpa [State.getV, Nat.mod_eq_of_lt hk] using this

/-! ## The call stack -/

/-- All `push` can do (`10_state.md` R33). -/
theorem State.push_cases (w : Word) :
    (16 ≤ s.stack.length ∧ s.push w = none) ∨
      (s.stack.length < 16 ∧ s.push w = some { s with stack := w :: s.stack }) := by
  unfold State.push stackDepth
  split
  · exact .inr ⟨‹_›, rfl⟩
  · exact .inl ⟨by omega, rfl⟩

/-- All `pop` can do (`10_state.md` R34). -/
theorem State.pop_cases :
    (s.stack = [] ∧ s.pop = none) ∨
      ∃ w rest, s.stack = w :: rest ∧ s.pop = some (w, { s with stack := rest }) := by
  unfold State.pop
  cases h : s.stack with
  | nil => exact .inl ⟨rfl, rfl⟩
  | cons w rest => exact .inr ⟨w, rest, rfl, rfl⟩

end Sys2Proof.Machine
end

