-- ==== Sys2Proof/Laws/Operands.lean ====
section
/-! SUPPORT. What each operand form and the flag computations give, in the numbers of the spec. -/

namespace Sys2Proof.Machine

/-! ## Jump targets, font address, digits -/

@[simp] theorem toNat_jumpTarget (nnn : Addr) : (jumpTarget nnn).toNat = nnn.toNat := by
  have := nnn.isLt
  simp [jumpTarget]
  omega

/-- The sum of `JP V0` is never reduced (`41_flow.md` R127). -/
theorem toNat_offsetTarget (nnn : Addr) (v0 : Byte) : (offsetTarget nnn v0).toNat = nnn.toNat + v0.toNat := by
  have := nnn.isLt
  have := v0.isLt
  simp [offsetTarget]
  omega

/-- The font address is 5 times the low digit of the register (`43_index_memory.md` R172). -/
theorem toNat_fontAddress (b : Byte) : (fontAddress b).toNat = 5 * (b.toNat % 16) := by
  revert b
  decide +kernel

/-- The decimal digits as numbers (`43_index_memory.md` R173). -/
theorem decimalDigits_eq (b : Byte) : decimalDigits b =
    [BitVec.ofNat 8 (b.toNat / 100), BitVec.ofNat 8 (b.toNat / 10 % 10), BitVec.ofNat 8 (b.toNat % 10)] := by
  revert b
  decide +kernel

/-! ## Memory at I -/

/-- All the range check can do (`43_index_memory.md` R174). -/
theorem dataRangeFault_cases (s : State) (count : Nat) :
    (1 ≤ count ∧ 0xFFF < s.i.toNat + count - 1 ∧
        dataRangeFault s count = some (.dataAddressOutOfRange (s.i.toNat + count - 1) s.pc)) ∨
      ((count = 0 ∨ s.i.toNat + count ≤ memSize) ∧ dataRangeFault s count = none) := by
  unfold dataRangeFault dataAddress memSize
  split
  · exact .inl ⟨by omega, by omega, rfl⟩
  · exact .inr ⟨by omega, rfl⟩

/-- All `readAtI` can do. -/
theorem readAtI_cases (s : State) (count : Nat) :
    (1 ≤ count ∧ 0xFFF < s.i.toNat + count - 1 ∧
        readAtI s count = .error (.dataAddressOutOfRange (s.i.toNat + count - 1) s.pc)) ∨
      ((count = 0 ∨ s.i.toNat + count ≤ memSize) ∧
        readAtI s count = .ok (Memory.readBytes s.mem s.i.toNat count)) := by
  rcases dataRangeFault_cases s count with ⟨h1, h2, h⟩ | ⟨h1, h⟩
  · exact .inl ⟨h1, h2, by rw [readAtI, h]⟩
  · exact .inr ⟨h1, by rw [readAtI, h]; rfl⟩

/-- All `writeAtI` can do. -/
theorem writeAtI_cases (s : State) (bytes : List Byte) :
    (1 ≤ bytes.length ∧ 0xFFF < s.i.toNat + bytes.length - 1 ∧
        writeAtI s bytes = .error (.dataAddressOutOfRange (s.i.toNat + bytes.length - 1) s.pc)) ∨
      ((bytes.length = 0 ∨ s.i.toNat + bytes.length ≤ memSize) ∧
        writeAtI s bytes = .ok (Memory.writeBytes s.mem s.i.toNat bytes)) := by
  rcases dataRangeFault_cases s bytes.length with ⟨h1, h2, h⟩ | ⟨h1, h⟩
  · exact .inl ⟨h1, h2, by rw [writeAtI, h]⟩
  · exact .inr ⟨h1, by rw [writeAtI, h]; rfl⟩

/-! ## Register ranges -/

@[simp] theorem length_registersUpTo (s : State) (x : Nibble) : (registersUpTo s x).length = x.toNat + 1 := by
  have := x.isLt
  simp [registersUpTo]
  omega

/-- The k-th byte of V0..Vx is Vk (`43_index_memory.md` R175). -/
theorem getElem_registersUpTo (s : State) (x : Nibble) (k : Nat) (h : k ≤ x.toNat) :
    (registersUpTo s x)[k]? = some (s.getV (BitVec.ofNat 4 k)) := by
  have hx := x.isLt
  have hk : k < 16 := by omega
  have hm : k % 16 = k := Nat.mod_eq_of_lt hk
  simp [registersUpTo, State.getV, Nat.lt_succ_of_le h, hm, hk]

/-- What `loadRegisters` leaves in each register: the byte loaded, or what was there (`43_index_memory.md` R176). -/
theorem getElem_loadRegisters (v : Vector Byte 16) (k : Nat) (bytes : List Byte) (j : Nat) (hj : j < 16) :
    (loadRegisters v k bytes)[j] =
      if k ≤ j ∧ j < k + bytes.length then bytes.getD (j - k) 0 else v[j] := by
  induction bytes generalizing v k with
  | nil => rw [loadRegisters, if_neg (by simp only [List.length_nil]; omega)]
  | cons b rest ih =>
    simp only [loadRegisters, List.length_cons]
    rw [ih]
    by_cases h1 : j = k
    · subst h1
      rw [if_neg (by omega), if_pos (by omega), Nat.sub_self]
      simp
    · by_cases h2 : k + 1 ≤ j ∧ j < k + 1 + rest.length
      · rw [if_pos h2, if_pos (by omega), show j - k = (j - (k + 1)) + 1 by omega]
        rfl
      · rw [if_neg h2, if_neg (by omega), Vector.getElem_setIfInBounds_ne hj (by omega)]

/-! ## Key numbers -/

/-- All `keyOperand` can do (`45_keypad_timers.md` R200). -/
theorem keyOperand_cases (s : State) (x : Nibble) :
    (∃ h : (s.getV x).toNat < 16, keyOperand s x = .ok ⟨(s.getV x).toNat, h⟩) ∨
      (15 < (s.getV x).toNat ∧ keyOperand s x = .error (.keyIndexOutOfRange (s.getV x) s.pc)) := by
  unfold keyOperand
  split
  · exact .inl ⟨‹_›, rfl⟩
  · exact .inr ⟨by omega, rfl⟩

/-- The latched keys are the keys whose latch is set (`45_keypad_timers.md` R204). -/
theorem mem_latchedKeys (s : State) (k : Fin 16) : k ∈ s.latchedKeys ↔ s.key[k] = true := by
  simp [State.latchedKeys]

/-- No key is latched exactly when every latch is 0. -/
theorem latchedKeys_eq_nil (s : State) : s.latchedKeys = [] ↔ ∀ k : Fin 16, s.key[k] = false := by
  simp [State.latchedKeys, List.filter_eq_nil_iff]

/-- Whatever the free value, the key picked is one of the latched keys (`45_keypad_timers.md` R204). -/
theorem pickKey_mem (n : Nat) (k : Fin 16) (more : List (Fin 16)) : pickKey n k more ∈ k :: more := by
  have h : Config.keyPick n % (more.length + 1) < (k :: more).length := by
    simpa using Nat.mod_lt _ (Nat.succ_pos _)
  rw [pickKey, List.getD_eq_getElem _ _ h]
  exact List.getElem_mem h

@[simp] theorem toNat_keyByte (k : Fin 16) : (keyByte k).toNat = k.val := by
  have := k.isLt
  simp [keyByte]
  omega

/-! ## Flags -/

@[simp] theorem toNat_flagByte (f : Bool) : (flagByte f).toNat = if f then 1 else 0 := by cases f <;> rfl

theorem lowBit_eq (a : Byte) : lowBit a = decide (a.toNat % 2 = 1) := by
  revert a
  decide +kernel

theorem highBit_eq (a : Byte) : highBit a = decide (128 ≤ a.toNat) := by
  revert a
  decide +kernel

end Sys2Proof.Machine
end

