-- ==== Sys2Proof/Laws/Exec.lean ====
section
/-! SUPPORT. All that each instruction with more than one outcome can do: its next state, or the fault it raises. -/

namespace Sys2Proof.Machine

variable (s : State)

/-- All `RET` can do (`41_flow.md` R120). -/
theorem execRet_cases :
    (s.stack = [] ∧ execRet s = .fault (.stackUnderflow s.pc)) ∨
      ∃ w rest, s.stack = w :: rest ∧ execRet s = .next { s with pc := w, stack := rest } := by
  rcases h : s.stack with _ | ⟨w, rest⟩
  · exact .inl ⟨rfl, by simp [execRet, State.pop, h, raise]⟩
  · exact .inr ⟨w, rest, rfl, by simp [execRet, State.pop, h, State.advance, State.setPc]⟩

/-- All `CALL` can do (`41_flow.md` R122). -/
theorem execCall_cases (nnn : Addr) :
    (16 ≤ s.stack.length ∧ execCall nnn s = .fault (.stackOverflow s.pc)) ∨
      (s.stack.length < 16 ∧
        execCall nnn s = .next { s with pc := jumpTarget nnn, stack := (s.pc + 2) :: s.stack }) := by
  rcases s.advance.push_cases s.advance.pc with ⟨h, hp⟩ | ⟨h, hp⟩
  · exact .inl ⟨h, by rw [execCall, hp]; rfl⟩
  · exact .inr ⟨h, by rw [execCall, hp]; rfl⟩

/-- All `LD B, Vx` can do (`43_index_memory.md` R173). -/
theorem execLdB_cases (x : Nibble) :
    (0xFFF < s.i.toNat + 2 ∧ execLdB x s = .fault (.dataAddressOutOfRange (s.i.toNat + 2) s.pc)) ∨
      (s.i.toNat + 3 ≤ memSize ∧ execLdB x s =
        .next (s.advance.setMem (Memory.writeBytes s.mem s.i.toNat (decimalDigits (s.getV x))))) := by
  rcases writeAtI_cases s (decimalDigits (s.getV x)) with ⟨-, h, hw⟩ | ⟨h, hw⟩
  · exact .inl ⟨h, by rw [execLdB, hw]; rfl⟩
  · exact .inr ⟨h.resolve_left (by simp [decimalDigits]), by rw [execLdB, hw]⟩

/-- All `LD [I], Vx` can do (`43_index_memory.md` R175). -/
theorem execLdMemVx_cases (x : Nibble) :
    (0xFFF < s.i.toNat + x.toNat ∧
        execLdMemVx x s = .fault (.dataAddressOutOfRange (s.i.toNat + x.toNat) s.pc)) ∨
      (s.i.toNat + (x.toNat + 1) ≤ memSize ∧ execLdMemVx x s =
        .next (s.advance.setMem (Memory.writeBytes s.mem s.i.toNat (registersUpTo s x)))) := by
  rcases writeAtI_cases s (registersUpTo s x) with ⟨-, h, hw⟩ | ⟨h, hw⟩
  · rw [length_registersUpTo] at h hw
    exact .inl ⟨h, by rw [execLdMemVx, hw]; rfl⟩
  · rw [length_registersUpTo] at h
    exact .inr ⟨h.resolve_left (by omega), by rw [execLdMemVx, hw]⟩

/-- All `LD Vx, [I]` can do (`43_index_memory.md` R176). -/
theorem execLdVxMem_cases (x : Nibble) :
    (0xFFF < s.i.toNat + x.toNat ∧
        execLdVxMem x s = .fault (.dataAddressOutOfRange (s.i.toNat + x.toNat) s.pc)) ∨
      (s.i.toNat + (x.toNat + 1) ≤ memSize ∧ execLdVxMem x s = .next { s.advance with
          v := loadRegisters s.v 0 (Memory.readBytes s.mem s.i.toNat (x.toNat + 1)) }) := by
  rcases readAtI_cases s (x.toNat + 1) with ⟨-, h, hr⟩ | ⟨h, hr⟩
  · exact .inl ⟨h, by rw [execLdVxMem, hr]; rfl⟩
  · exact .inr ⟨h.resolve_left (by omega), by rw [execLdVxMem, hr]⟩

/-- All `DRW Vx, Vy, n` can do (`44_display.md` R191). -/
theorem execDrw_cases (x y n : Nibble) :
    (1 ≤ n.toNat ∧ 0xFFF < s.i.toNat + n.toNat - 1 ∧
        execDrw x y n s = .fault (.dataAddressOutOfRange (s.i.toNat + n.toNat - 1) s.pc)) ∨
      ((n.toNat = 0 ∨ s.i.toNat + n.toNat ≤ memSize) ∧ ∃ d,
        d = drawRows (s.getV x).toNat (s.getV y).toNat (Memory.readBytes s.mem s.i.toNat n.toNat) (s.fb, false) ∧
        execDrw x y n s = .next ((s.advance.setScreen d.1).setFlag d.2)) := by
  rcases readAtI_cases s n.toNat with ⟨h1, h2, hr⟩ | ⟨h, hr⟩
  · exact .inl ⟨h1, h2, by rw [execDrw, hr]; rfl⟩
  · exact .inr ⟨h, _, rfl, by rw [execDrw, hr]⟩

/-- All `SKP Vx` can do (`45_keypad_timers.md` R200). -/
theorem execSkp_cases (x : Nibble) :
    (∃ h : (s.getV x).toNat < 16, execSkp x s = .next (s.advance.skipIf s.key[(s.getV x).toNat])) ∨
      (15 < (s.getV x).toNat ∧ execSkp x s = .fault (.keyIndexOutOfRange (s.getV x) s.pc)) := by
  rcases keyOperand_cases s x with ⟨h, hk⟩ | ⟨h, hk⟩
  · exact .inl ⟨h, by rw [execSkp, hk]; rfl⟩
  · exact .inr ⟨h, by rw [execSkp, hk]; rfl⟩

/-- All `SKNP Vx` can do (`45_keypad_timers.md` R201). -/
theorem execSknp_cases (x : Nibble) :
    (∃ h : (s.getV x).toNat < 16, execSknp x s = .next (s.advance.skipIf (!s.key[(s.getV x).toNat]))) ∨
      (15 < (s.getV x).toNat ∧ execSknp x s = .fault (.keyIndexOutOfRange (s.getV x) s.pc)) := by
  rcases keyOperand_cases s x with ⟨h, hk⟩ | ⟨h, hk⟩
  · exact .inl ⟨h, by rw [execSknp, hk]; rfl⟩
  · exact .inr ⟨h, by rw [execSknp, hk]; rfl⟩

/-- All `LD Vx, K` can do (`45_keypad_timers.md` R204): wait with the state as it is, or load the number of a latched key. -/
theorem execLdVxK_cases (x : Nibble) :
    ((∀ k : Fin 16, s.key[k] = false) ∧ execLdVxK x s = .next s) ∨
      ∃ k : Fin 16, ∃ t, s.key[k] = true ∧ (t = s.advance ∨ t = s.advance.countDraw) ∧
        execLdVxK x s = .next (t.setV x (keyByte k)) := by
  unfold execLdVxK
  split
  · rename_i h
    exact .inl ⟨(latchedKeys_eq_nil s).mp h, rfl⟩
  · rename_i k h
    exact .inr ⟨k, _, (mem_latchedKeys s k).mp (by simp [h]), .inl rfl, rfl⟩
  · rename_i k more _ h
    exact .inr ⟨pickKey s.draws k more, _, (mem_latchedKeys s _).mp (h ▸ pickKey_mem s.draws k more), .inr rfl, rfl⟩

end Sys2Proof.Machine
end

