-- ==== Sys2Proof/Laws/HostOps.lean ====
section
/-! SUPPORT. The state a session starts with and RESET, for any value of the parameter FONT. -/

namespace Sys2Proof.Machine

/-- The default font gives the plain reset state (`00_scope.md` R6, log 3). -/
theorem State.powerOn_defaultFont : State.powerOn defaultFont = State.reset := by decide +kernel

variable (font : Font) (s : State)

/-! ## powerOn -/

@[simp] theorem State.powerOn_v : (State.powerOn font).v = State.reset.v := rfl
@[simp] theorem State.powerOn_i : (State.powerOn font).i = 0 := rfl
@[simp] theorem State.powerOn_pc : (State.powerOn font).pc = 0x200 := rfl
@[simp] theorem State.powerOn_stack : (State.powerOn font).stack = [] := rfl
@[simp] theorem State.powerOn_dt : (State.powerOn font).dt = 0 := rfl
@[simp] theorem State.powerOn_st : (State.powerOn font).st = 0 := rfl
@[simp] theorem State.powerOn_fb : (State.powerOn font).fb = blankScreen := rfl
@[simp] theorem State.powerOn_key : (State.powerOn font).key = State.reset.key := rfl
@[simp] theorem State.powerOn_redraw : (State.powerOn font).redraw = false := rfl
@[simp] theorem State.powerOn_draws : (State.powerOn font).draws = 0 := rfl
@[simp] theorem State.powerOn_schedule : (State.powerOn font).schedule = [] := rfl
@[simp] theorem State.powerOn_hostRest : (State.powerOn font).hostRest = .loop [] := rfl
@[simp] theorem State.powerOn_reply : (State.powerOn font).reply = .nothing := rfl
@[simp] theorem State.powerOn_font : (State.powerOn font).font = font := rfl

@[simp] theorem length_fontBytes : (fontBytes font).length = 80 := by simp [fontBytes, glyphZero]

/-- The memory a session starts with is in canonical form. -/
theorem Memory.wf_powerOn : Memory.wf (State.powerOn font).mem := Memory.wf_writeBytes _ Memory.wf_reset _ _

/-- The memory a session starts with: the font at 0x000..0x04F and 0x00 elsewhere (`10_state.md` R46). -/
theorem Memory.read_powerOn (a : Nat) : Memory.read (State.powerOn font).mem a = (fontBytes font).getD a 0 := by
  have past (f : Font) (h : 80 ≤ a) : (fontBytes f).getD a 0 = 0 := by
    rw [List.getD_eq_getElem?_getD, List.getElem?_eq_none (by simpa using h), Option.getD_none]
  show Memory.read (Memory.writeBytes State.reset.mem 0 (fontBytes font)) a = _
  by_cases h : a < 80
  · rw [Memory.read_writeBytes _ Memory.wf_reset _ _ (by simp [memSize]), if_pos (by simp; omega), Nat.sub_zero]
  · rw [Memory.read_writeBytes_outside _ Memory.wf_reset _ _ _ (by simp; omega), past font (by omega)]
    exact past defaultFont (by omega)

/-! ## RESET -/

@[simp] theorem opReset_mem : (opReset s).mem = (State.powerOn s.font).mem := rfl
@[simp] theorem opReset_v : (opReset s).v = State.reset.v := rfl
@[simp] theorem opReset_i : (opReset s).i = 0 := rfl
@[simp] theorem opReset_pc : (opReset s).pc = 0x200 := rfl
@[simp] theorem opReset_stack : (opReset s).stack = [] := rfl
@[simp] theorem opReset_dt : (opReset s).dt = 0 := rfl
@[simp] theorem opReset_st : (opReset s).st = 0 := rfl
@[simp] theorem opReset_fb : (opReset s).fb = blankScreen := rfl
@[simp] theorem opReset_key : (opReset s).key = State.reset.key := rfl
@[simp] theorem opReset_redraw : (opReset s).redraw = false := rfl
@[simp] theorem opReset_draws : (opReset s).draws = s.draws := rfl
@[simp] theorem opReset_schedule : (opReset s).schedule = s.schedule := rfl
@[simp] theorem opReset_hostRest : (opReset s).hostRest = s.hostRest := rfl
@[simp] theorem opReset_reply : (opReset s).reply = .nothing := rfl
@[simp] theorem opReset_font : (opReset s).font = s.font := rfl

/-! ## The next operation -/

/-- All the choice of the next operation can do (`70_reset_and_hazards.md` R290). -/
theorem nextOp_cases :
    (∃ op rest, s.schedule = op :: rest ∧ nextOp s = (op, { s with schedule := rest })) ∨
      (s.schedule = [] ∧ s.hostRest = .loop [] ∧ nextOp s = (.cycle, s)) ∨
      (∃ op rest, s.schedule = [] ∧ s.hostRest = .loop (op :: rest) ∧ nextOp s = (op, { s with schedule := rest })) ∨
      ∃ n, s.schedule = [] ∧ s.hostRest = .free n ∧ nextOp s = (Config.hostOp n, { s with hostRest := .free (n + 1) }) := by
  unfold nextOp
  split
  · exact .inl ⟨_, _, ‹_›, rfl⟩
  · split
    · exact .inr (.inl ⟨‹_›, ‹_›, rfl⟩)
    · exact .inr (.inr (.inl ⟨_, _, ‹_›, ‹_›, rfl⟩))
    · exact .inr (.inr (.inr ⟨_, ‹_›, ‹_›, rfl⟩))

/-- The choice of the next operation changes nothing but what the host still has to do. -/
theorem nextOp_keeps : ∃ ops rest, (nextOp s).2 = { s with schedule := ops, hostRest := rest } := by
  rcases nextOp_cases s with ⟨_, _, _, h⟩ | ⟨_, _, h⟩ | ⟨_, _, _, _, h⟩ | ⟨_, _, _, h⟩ <;> rw [h] <;> exact ⟨_, _, rfl⟩

@[simp] theorem nextOp_mem : (nextOp s).2.mem = s.mem := by obtain ⟨_, _, h⟩ := nextOp_keeps s; rw [h]
@[simp] theorem nextOp_v : (nextOp s).2.v = s.v := by obtain ⟨_, _, h⟩ := nextOp_keeps s; rw [h]
@[simp] theorem nextOp_i : (nextOp s).2.i = s.i := by obtain ⟨_, _, h⟩ := nextOp_keeps s; rw [h]
@[simp] theorem nextOp_pc : (nextOp s).2.pc = s.pc := by obtain ⟨_, _, h⟩ := nextOp_keeps s; rw [h]
@[simp] theorem nextOp_stack : (nextOp s).2.stack = s.stack := by obtain ⟨_, _, h⟩ := nextOp_keeps s; rw [h]
@[simp] theorem nextOp_dt : (nextOp s).2.dt = s.dt := by obtain ⟨_, _, h⟩ := nextOp_keeps s; rw [h]
@[simp] theorem nextOp_st : (nextOp s).2.st = s.st := by obtain ⟨_, _, h⟩ := nextOp_keeps s; rw [h]
@[simp] theorem nextOp_fb : (nextOp s).2.fb = s.fb := by obtain ⟨_, _, h⟩ := nextOp_keeps s; rw [h]
@[simp] theorem nextOp_key : (nextOp s).2.key = s.key := by obtain ⟨_, _, h⟩ := nextOp_keeps s; rw [h]
@[simp] theorem nextOp_redraw : (nextOp s).2.redraw = s.redraw := by obtain ⟨_, _, h⟩ := nextOp_keeps s; rw [h]
@[simp] theorem nextOp_draws : (nextOp s).2.draws = s.draws := by obtain ⟨_, _, h⟩ := nextOp_keeps s; rw [h]
@[simp] theorem nextOp_reply : (nextOp s).2.reply = s.reply := by obtain ⟨_, _, h⟩ := nextOp_keeps s; rw [h]
@[simp] theorem nextOp_font : (nextOp s).2.font = s.font := by obtain ⟨_, _, h⟩ := nextOp_keeps s; rw [h]

end Sys2Proof.Machine
end

