-- ==== Sys2Proof/Laws/PerInstr.lean ====
section
/-! SUPPORT. Per instruction: its encoding matches its row of the opcode map (`30_encoding.md` R77). -/

namespace Sys2Proof.Laws.Encoding

/-- The word of an instruction passes the mask and match test of its row (`30_encoding.md` R77). -/
def Statement (i : Instr) : Prop := encode i &&& (opcodeRow i).1 = (opcodeRow i).2

theorem cls (ign : Nibble) : Statement (.cls ign) := maskByte_xkk 0 ign 0xE0

theorem ret (ign : Nibble) : Statement (.ret ign) := maskByte_xkk 0 ign 0xEE

theorem jp (nnn : Addr) : Statement (.jp nnn) := mask_nnn 1 nnn

theorem call (nnn : Addr) : Statement (.call nnn) := mask_nnn 2 nnn

theorem seImm (x : Nibble) (kk : Byte) : Statement (.seImm x kk) := mask_xkk 3 x kk

theorem sneImm (x : Nibble) (kk : Byte) : Statement (.sneImm x kk) := mask_xkk 4 x kk

theorem seReg (x : Nibble) (y : Nibble) (ign : Nibble) : Statement (.seReg x y ign) := mask_xyn 5 x y ign

theorem ldImm (x : Nibble) (kk : Byte) : Statement (.ldImm x kk) := mask_xkk 6 x kk

theorem addImm (x : Nibble) (kk : Byte) : Statement (.addImm x kk) := mask_xkk 7 x kk

theorem ldReg (x : Nibble) (y : Nibble) : Statement (.ldReg x y) := maskLow_xyn 8 x y 0

theorem orReg (x : Nibble) (y : Nibble) : Statement (.orReg x y) := maskLow_xyn 8 x y 1

theorem andReg (x : Nibble) (y : Nibble) : Statement (.andReg x y) := maskLow_xyn 8 x y 2

theorem xorReg (x : Nibble) (y : Nibble) : Statement (.xorReg x y) := maskLow_xyn 8 x y 3

theorem addReg (x : Nibble) (y : Nibble) : Statement (.addReg x y) := maskLow_xyn 8 x y 4

theorem subReg (x : Nibble) (y : Nibble) : Statement (.subReg x y) := maskLow_xyn 8 x y 5

theorem shr (x : Nibble) (ign : Nibble) : Statement (.shr x ign) := maskLow_xyn 8 x ign 6

theorem subnReg (x : Nibble) (y : Nibble) : Statement (.subnReg x y) := maskLow_xyn 8 x y 7

theorem shl (x : Nibble) (ign : Nibble) : Statement (.shl x ign) := maskLow_xyn 8 x ign 0xE

theorem sneReg (x : Nibble) (y : Nibble) (ign : Nibble) : Statement (.sneReg x y ign) := mask_xyn 9 x y ign

theorem ldI (nnn : Addr) : Statement (.ldI nnn) := mask_nnn 0xA nnn

theorem jpV0 (nnn : Addr) : Statement (.jpV0 nnn) := mask_nnn 0xB nnn

theorem rnd (x : Nibble) (kk : Byte) : Statement (.rnd x kk) := mask_xkk 0xC x kk

theorem drw (x : Nibble) (y : Nibble) (n : Nibble) : Statement (.drw x y n) := mask_xyn 0xD x y n

theorem skp (x : Nibble) : Statement (.skp x) := maskByte_xkk 0xE x 0x9E

theorem sknp (x : Nibble) : Statement (.sknp x) := maskByte_xkk 0xE x 0xA1

theorem ldVxDt (x : Nibble) : Statement (.ldVxDt x) := maskByte_xkk 0xF x 0x07

theorem ldDtVx (x : Nibble) : Statement (.ldDtVx x) := maskByte_xkk 0xF x 0x15

theorem ldStVx (x : Nibble) : Statement (.ldStVx x) := maskByte_xkk 0xF x 0x18

theorem ldVxK (x : Nibble) : Statement (.ldVxK x) := maskByte_xkk 0xF x 0x0A

theorem addI (x : Nibble) : Statement (.addI x) := maskByte_xkk 0xF x 0x1E

theorem ldF (x : Nibble) : Statement (.ldF x) := maskByte_xkk 0xF x 0x29

theorem ldB (x : Nibble) : Statement (.ldB x) := maskByte_xkk 0xF x 0x33

theorem ldMemVx (x : Nibble) : Statement (.ldMemVx x) := maskByte_xkk 0xF x 0x55

theorem ldVxMem (x : Nibble) : Statement (.ldVxMem x) := maskByte_xkk 0xF x 0x65

end Sys2Proof.Laws.Encoding
end

