-- ==== Sys2Proof/Laws/Screen.lean ====
section
/-! SUPPORT. The framebuffer: a pixel read after a write, and what the walk over a sprite does to every pixel. -/

namespace Sys2Proof.Machine

theorem getLsbD_setBit (row : BitVec 64) (x : Nat) (b : Bool) (hx : x < 64) (k : Nat) :
    (setBit row x b).getLsbD k = if k = x then b else row.getLsbD k := by
  unfold setBit
  by_cases hk : k = x
  · subst hk
    cases b <;> simp [hx]
  · have hk' : x ≠ k := Ne.symm hk
    by_cases hw : k < 64
    · cases b <;> simp [hk, hw]
    · have h64 : 64 ≤ k := by omega
      cases b <;> simp [hk, BitVec.getLsbD_of_ge _ _ h64]

/-- Every pixel of the blank screen is 0 (`44_display.md` R190). -/
@[simp] theorem getPixel_blankScreen (k : Nat) : getPixel blankScreen k = false := by
  unfold getPixel blankScreen
  by_cases h : k / screenWidth < 32
  · simp [h]
  · simp [h]

/-- A pixel read after a pixel write (`10_state.md` R37). -/
theorem getPixel_setPixel (f : FrameBuffer) (k : Nat) (hk : k < 2048) (b : Bool) (j : Nat) :
    getPixel (setPixel f k b) j = if j = k then b else getPixel f j := by
  have hrow : k / 64 < 32 := by omega
  unfold getPixel setPixel screenWidth
  by_cases hjk : j / 64 = k / 64
  · rw [hjk, Vector.getElem?_setIfInBounds_self_of_lt hrow]
    simp only [Option.getD_some]
    rw [getLsbD_setBit _ _ _ (Nat.mod_lt _ (by omega))]
    have : j % 64 = k % 64 ↔ j = k := by omega
    simp only [this]
  · have hne : k / 64 ≠ j / 64 := fun h => hjk h.symm
    have : j ≠ k := fun h => hjk (by rw [h])
    rw [Vector.getElem?_setIfInBounds_ne hne]
    simp [this]

/-- Framebuffers whose 2048 pixels read alike are equal. -/
theorem screen_ext (f g : FrameBuffer) (h : ∀ k, k < 2048 → getPixel f k = getPixel g k) : f = g := by
  refine Vector.ext fun y hy => BitVec.eq_of_getLsbD_eq fun x hx => ?_
  have := h (x + y * 64) (by omega)
  have h1 : (x + y * 64) / 64 = y := by omega
  have h2 : (x + y * 64) % 64 = x := by omega
  simpa [getPixel, screenWidth, h1, h2, hy] using this

/-- Whether the pixel (px, py) lies in the grid. -/
abbrev inGrid (px py : Nat) : Prop := px < 64 ∧ py < 32

/-- One pixel of a sprite: only its own pixel changes, by XOR, and only inside the grid (`44_display.md` R191). -/
theorem getPixel_drawPixel (d : Drawing) (px py : Nat) (bit : Bool) (qx qy : Nat) (hq : inGrid qx qy) :
    getPixel (drawPixel d px py bit).1 (qx + qy * 64) =
      (getPixel d.1 (qx + qy * 64) ^^ (decide (px = qx ∧ py = qy) && bit)) := by
  unfold drawPixel screenWidth screenHeight
  split
  · rename_i h
    rw [getPixel_setPixel _ _ (by omega)]
    have : qx + qy * 64 = px + py * 64 ↔ px = qx ∧ py = qy := by
      unfold inGrid at hq
      omega
    by_cases he : px = qx ∧ py = qy
    · obtain ⟨rfl, rfl⟩ := he
      simp
    · simp [this, he]
  · rename_i h
    have : ¬ (px = qx ∧ py = qy) := by
      rintro ⟨rfl, rfl⟩
      exact h hq
    simp [this]

theorem collision_drawPixel (d : Drawing) (px py : Nat) (bit : Bool) :
    (drawPixel d px py bit).2 = (d.2 || (decide (inGrid px py) && getPixel d.1 (px + py * 64) && bit)) := by
  unfold drawPixel screenWidth screenHeight
  split
  · rename_i h
    simp [inGrid, h]
  · rename_i h
    have : ¬ inGrid px py := h
    simp [this]

/-- The columns `cs` of one row of a sprite, whatever their order, when no column comes twice. -/
theorem drawColumns_spec (x0 py : Nat) (row : Byte) (cs : List Nat) (hcs : cs.Nodup) (d : Drawing) :
    (∀ qx qy, inGrid qx qy → getPixel (drawColumns x0 py row cs d).1 (qx + qy * 64) =
        (getPixel d.1 (qx + qy * 64) ^^ (decide (py = qy ∧ x0 ≤ qx ∧ qx - x0 ∈ cs) && row.getLsbD (7 - (qx - x0))))) ∧
      ((drawColumns x0 py row cs d).2 = true ↔ d.2 = true ∨
        ∃ c ∈ cs, inGrid (x0 + c) py ∧ getPixel d.1 (x0 + c + py * 64) = true ∧ row.getLsbD (7 - c) = true) := by
  induction cs generalizing d with
  | nil => simp [drawColumns]
  | cons c rest ih =>
    obtain ⟨hc, hrest⟩ := List.nodup_cons.mp hcs
    obtain ⟨ihp, ihc⟩ := ih hrest (drawPixel d (x0 + c) py (row.getLsbD (7 - c)))
    refine ⟨fun qx qy hq => ?_, ?_⟩
    · rw [drawColumns, ihp qx qy hq, getPixel_drawPixel d _ _ _ qx qy hq]
      by_cases he : x0 + c = qx ∧ py = qy
      · obtain ⟨rfl, rfl⟩ := he
        simp [hc]
      · have : (py = qy ∧ x0 ≤ qx ∧ qx - x0 ∈ c :: rest) ↔ (py = qy ∧ x0 ≤ qx ∧ qx - x0 ∈ rest) := by
          constructor
          · rintro ⟨h1, h2, h3⟩
            rcases List.mem_cons.mp h3 with h3 | h3
            · exact absurd ⟨by omega, h1⟩ he
            · exact ⟨h1, h2, h3⟩
          · rintro ⟨h1, h2, h3⟩
            exact ⟨h1, h2, List.mem_cons_of_mem _ h3⟩
        simp only [this, he, decide_false, Bool.false_and, Bool.xor_false]
    · rw [drawColumns, ihc, collision_drawPixel]
      have later : ∀ c' ∈ rest, inGrid (x0 + c') py →
          getPixel (drawPixel d (x0 + c) py (row.getLsbD (7 - c))).1 (x0 + c' + py * 64) =
            getPixel d.1 (x0 + c' + py * 64) := by
        intro c' hc' hg
        have : c ≠ c' := fun h => hc (h ▸ hc')
        rw [getPixel_drawPixel d _ _ _ _ _ hg]
        simp [this]
      simp only [Bool.or_eq_true, Bool.and_eq_true, decide_eq_true_eq, List.mem_cons, exists_eq_or_imp]
      constructor
      · rintro ((h | ⟨⟨h1, h2⟩, h3⟩) | ⟨c', hc', hg, h2, h3⟩)
        · exact .inl h
        · exact .inr (.inl ⟨h1, h2, h3⟩)
        · exact .inr (.inr ⟨c', hc', hg, by rwa [later c' hc' hg] at h2, h3⟩)
      · rintro (h | ⟨h1, h2, h3⟩ | ⟨c', hc', hg, h2, h3⟩)
        · exact .inl (.inl h)
        · exact .inl (.inr ⟨⟨h1, h2⟩, h3⟩)
        · exact .inr ⟨c', hc', hg, by rw [later c' hc' hg]; exact h2, h3⟩

/-- The bit a sprite of rows `rows`, left edge `x0`, top edge `y0`, has at (qx, qy): bit `7-c` of its row `r` at
`(x0+c, y0+r)`, and 0 outside the sprite (`44_display.md` R191). -/
def spriteBit (rows : List Byte) (x0 y0 qx qy : Nat) : Bool :=
  decide (x0 ≤ qx ∧ qx < x0 + 8 ∧ y0 ≤ qy ∧ qy < y0 + rows.length) &&
    (rows.getD (qy - y0) 0).getLsbD (7 - (qx - x0))

/-- What drawing a sprite does: every pixel of the grid is XORed with the sprite's bit there, and there is a collision
exactly when some pixel of the grid and the sprite's bit there are both 1 (`44_display.md` R191, R192). -/
theorem drawRows_spec (x0 y0 : Nat) (rows : List Byte) (d : Drawing) :
    (∀ qx qy, inGrid qx qy → getPixel (drawRows x0 y0 rows d).1 (qx + qy * 64) =
        (getPixel d.1 (qx + qy * 64) ^^ spriteBit rows x0 y0 qx qy)) ∧
      ((drawRows x0 y0 rows d).2 = true ↔ d.2 = true ∨
        ∃ qx qy, inGrid qx qy ∧ getPixel d.1 (qx + qy * 64) = true ∧ spriteBit rows x0 y0 qx qy = true) := by
  induction rows generalizing y0 d with
  | nil =>
    have : ∀ qx qy, spriteBit [] x0 y0 qx qy = false := fun qx qy => by simp [spriteBit]
    simp [drawRows, this]
  | cons row rest ih =>
    obtain ⟨cp, cc⟩ := drawColumns_spec x0 y0 row spriteColumns (by decide) d
    obtain ⟨rp, rc⟩ := ih (y0 + 1) (drawColumns x0 y0 row spriteColumns d)
    have cols : ∀ qx, (x0 ≤ qx ∧ qx - x0 ∈ spriteColumns) ↔ (x0 ≤ qx ∧ qx < x0 + 8) := by
      intro qx
      simp only [spriteColumns, List.mem_cons, List.not_mem_nil, or_false]
      omega
    have top : ∀ qx, spriteBit (row :: rest) x0 y0 qx y0 =
        (decide (x0 ≤ qx ∧ qx < x0 + 8) && row.getLsbD (7 - (qx - x0))) := by
      intro qx
      simp [spriteBit]
    have below : ∀ qx qy, qy ≠ y0 → spriteBit (row :: rest) x0 y0 qx qy = spriteBit rest x0 (y0 + 1) qx qy := by
      intro qx qy hne
      by_cases hlt : y0 + 1 ≤ qy
      · have h1 : qy - y0 = (qy - (y0 + 1)) + 1 := by omega
        have h2 : (x0 ≤ qx ∧ qx < x0 + 8 ∧ y0 ≤ qy ∧ qy < y0 + (row :: rest).length) ↔
            (x0 ≤ qx ∧ qx < x0 + 8 ∧ y0 + 1 ≤ qy ∧ qy < y0 + 1 + rest.length) := by
          simp only [List.length_cons]
          omega
        unfold spriteBit
        simp only [h2]
        rw [h1]
        rfl
      · have h2 : ¬ (x0 ≤ qx ∧ qx < x0 + 8 ∧ y0 ≤ qy ∧ qy < y0 + (row :: rest).length) := by omega
        have h3 : ¬ (x0 ≤ qx ∧ qx < x0 + 8 ∧ y0 + 1 ≤ qy ∧ qy < y0 + 1 + rest.length) := by omega
        unfold spriteBit
        simp only [h2, h3, decide_false, Bool.false_and]
    have topRest : ∀ qx, spriteBit rest x0 (y0 + 1) qx y0 = false := by
      intro qx
      have h3 : ¬ (x0 ≤ qx ∧ qx < x0 + 8 ∧ y0 + 1 ≤ y0 ∧ y0 < y0 + 1 + rest.length) := by omega
      unfold spriteBit
      simp only [h3, decide_false, Bool.false_and]
    refine ⟨fun qx qy hq => ?_, ?_⟩
    · rw [drawRows, rp qx qy hq, cp qx qy hq]
      by_cases he : qy = y0
      · subst he
        simp only [topRest, top, true_and, cols, Bool.xor_false]
      · have : ¬ (y0 = qy ∧ x0 ≤ qx ∧ qx - x0 ∈ spriteColumns) := fun h => he h.1.symm
        simp only [this, below qx qy he, decide_false, Bool.false_and, Bool.xor_false]
    · rw [drawRows, rc, cc]
      constructor
      · rintro ((h | ⟨c, hc, hg, h1, h2⟩) | ⟨qx, qy, hg, h1, h2⟩)
        · exact .inl h
        · refine .inr ⟨x0 + c, y0, hg, h1, ?_⟩
          have : x0 ≤ x0 + c ∧ x0 + c < x0 + 8 := (cols _).mp ⟨by omega, by simpa using hc⟩
          rw [top]
          simpa [this] using h2
        · have hne : qy ≠ y0 := by
            rintro rfl
            simp [topRest] at h2
          refine .inr ⟨qx, qy, hg, ?_, by rw [below qx qy hne]; exact h2⟩
          rw [cp qx qy hg] at h1
          have : ¬ (y0 = qy ∧ x0 ≤ qx ∧ qx - x0 ∈ spriteColumns) := fun h => hne h.1.symm
          simpa [this] using h1
      · rintro (h | ⟨qx, qy, hg, h1, h2⟩)
        · exact .inl (.inl h)
        · by_cases he : qy = y0
          · subst he
            rw [top, Bool.and_eq_true, decide_eq_true_eq] at h2
            have hc := (cols qx).mpr h2.1
            have hx : x0 + (qx - x0) = qx := by omega
            exact .inl (.inr ⟨qx - x0, hc.2, by rw [hx]; exact hg, by rw [hx]; exact h1, h2.2⟩)
          · refine .inr ⟨qx, qy, hg, ?_, by rw [← below qx qy he]; exact h2⟩
            rw [cp qx qy hg]
            have : ¬ (y0 = qy ∧ x0 ≤ qx ∧ qx - x0 ∈ spriteColumns) := fun h => he h.1.symm
            simpa [this] using h1

end Sys2Proof.Machine
end

