-- ==== Sys2Proof/Laws/Step.lean ====
section
/-! SUPPORT. All that a cycle and a step can do, said once. -/

namespace Sys2Proof.Machine

/-- The fetch of a word whose two bytes are inside memory (`40_cycle.md` R101). -/
theorem fetchWord_inside (s : State) (h : s.pc.toNat ≤ 0xFFE) :
    fetchWord s = some (wordOfBytes (Memory.read s.mem s.pc.toNat) (Memory.read s.mem (s.pc.toNat + 1))) :=
  if_neg (by unfold lastFetch; omega)

/-- All a cycle can do (`40_cycle.md` R105): the fetch faults, the word is unknown, or its instruction is executed. -/
theorem cycle_cases (s : State) :
    (0xFFE < s.pc.toNat ∧ cycle s = .fault (.fetchAddressOutOfRange s.pc)) ∨
      (s.pc.toNat ≤ 0xFFE ∧ ∃ w, fetchWord s = some w ∧
        ((∃ u, decode w = .unknown u ∧ cycle s = .fault (.unknownInstruction u s.pc)) ∨
          ∃ i, decode w = .insn i ∧ cycle s = exec i s)) := by
  by_cases h : 0xFFE < s.pc.toNat
  · refine .inl ⟨h, ?_⟩
    have : fetchWord s = none := if_pos h
    rw [cycle, this]
    rfl
  · refine .inr ⟨by omega, _, fetchWord_inside s (by omega), ?_⟩
    rw [cycle, fetchWord_inside s (by omega)]
    generalize wordOfBytes _ _ = w
    rcases hd : decode w with i | u
    · exact .inr ⟨i, rfl, by simp only [hd]⟩
    · exact .inl ⟨u, rfl, by simp only [hd]; rfl⟩

/-- When the host's next operation is a CYCLE, a step is a cycle (log 7). -/
theorem step_cycle (s : State) (h : (nextOp s).1 = .cycle) : step s = cycle ((nextOp s).2.setReply .nothing) := by
  simp [step, h, perform, opCycle]

/-- With no operation scheduled and a host that does nothing but CYCLE, a step is a cycle of the state itself (log 7). -/
theorem step_unscheduled (s : State) (h : s.schedule = []) (hr : s.hostRest = .loop []) :
    step s = cycle (s.setReply .nothing) := by
  simp [step, nextOp, h, hr, perform, opCycle]

/-- With operations scheduled a step performs the first of them (`70_reset_and_hazards.md` R290). -/
theorem step_scheduled (s : State) (op : HostOp) (rest : List HostOp) (h : s.schedule = op :: rest) :
    step s = perform op { s with schedule := rest } := by
  simp [step, nextOp, h]

/-- A word laid at the program counter is the word fetched there (`20_memory.md` R52). -/
theorem fetchWord_layWordAtPc (s : State) (hm : Memory.wf s.mem) (h : s.pc.toNat ≤ 0xFFE) (w : Word) :
    fetchWord (layWordAtPc s w) = some w := by
  rw [fetchWord_inside (layWordAtPc s w) h]
  simp only [layWordAtPc, State.setMem_mem, State.setMem_pc]
  rw [Memory.read_writeBytes _ hm _ _ (by simp [memSize]; omega),
    Memory.read_writeBytes _ hm _ _ (by simp [memSize]; omega)]
  simp [wordOfBytes_split]

end Sys2Proof.Machine
end

