-- ==== Sys2Proof/Tests/Slice0.lean ====
section
/-! SUPPORT. Tests with expected results from `95_test_vectors.md` (T-numbers, E-numbers) or from the spec's own patterns, and
for every statement with hypotheses a state and operands that meet them together. -/

namespace Sys2Proof.Tests

open Sys2Proof.Machine

-- One theorem after the other: elaborated all at once, the many small ones would each hold a thread.
set_option Elab.async false

/-! ## Helpers -/

/-- The reset state with its program counter at `pc` and an instruction word stored there. -/
def start (pc w : Word) : State := layWordAtPc (State.reset.setPc pc) w

/-- The state is the next state of a result and passes a check. -/
def gives (r : Result) (check : State → Bool) : Bool :=
  match r with
  | .next t => check t
  | .fault _ => false
  | .refused _ => false

/-- The result is this fault. -/
def faults (r : Result) (f : Fault) : Bool :=
  match r with
  | .next _ => false
  | .fault g => g == f
  | .refused _ => false

/-- The result is a next state with this reply. -/
def replies (r : Result) (reply : Reply) : Bool := gives r fun t => t.reply == reply

/-- A result that gives a next state has one, and the check holds of it. -/
theorem next_of_gives {r : Result} {p : State → Prop} [DecidablePred p] (h : gives r (fun t => decide (p t)) = true) :
    ∃ t, r = .next t ∧ p t := by
  cases r with
  | next t => exact ⟨t, rfl, of_decide_eq_true h⟩
  | fault _ => cases h
  | refused _ => cases h

/-- A result that gives a next state has one. -/
theorem completes {r : Result} (h : gives r (fun _ => true) = true) : ∃ t, r = .next t := by
  cases r with
  | next t => exact ⟨t, rfl⟩
  | fault _ => cases h
  | refused _ => cases h

/-- A result that is a fault is that fault. -/
theorem fault_of_faults {r : Result} {f : Fault} (h : faults r f = true) : r = .fault f := by
  cases r with
  | next t => cases h
  | fault g => exact congrArg _ (eq_of_beq h)
  | refused _ => cases h

/-- A stack of `n` entries. -/
def deep (n : Nat) : List Word := List.replicate n 0x204

/-- The key latches with one key set. -/
def pressed (k : Fin 16) : Vector Bool 16 := (Vector.replicate 16 false).set k true

/-- The framebuffer with these pixels set. -/
def lit (ks : List Nat) : FrameBuffer := ks.foldl (fun f k => setPixel f k true) blankScreen

/-- A 16-bit word from its bits, written out from bit 15 down to bit 0. -/
def bits (bs : List Bool) : Word := bs.foldl (fun w b => (w <<< 1) ||| (if b then 1 else 0)) 0

/-! ## WellFormed: a term refused by each check (`30_encoding.md` R88) -/

theorem test_illFormed_cls : (Instr.wellFormed (.cls 1)) = false := by decide
theorem test_illFormed_ret : (Instr.wellFormed (.ret 7)) = false := by decide
theorem test_illFormed_seReg : (Instr.wellFormed (.seReg 0xA 0xB 7)) = false := by decide
theorem test_illFormed_shr : (Instr.wellFormed (.shr 0 1)) = false := by decide
theorem test_illFormed_shl : (Instr.wellFormed (.shl 0 1)) = false := by decide
theorem test_illFormed_sneReg : (Instr.wellFormed (.sneReg 0xA 0xB 7)) = false := by decide
theorem test_wellFormed_spelling : Instr.wellFormed (.seReg 0xA 0xB 0) = true := by decide

/-! ## Decode: every constructor, by a word from the patterns of `30_encoding.md` R77 (T1 to T21) -/

theorem test_decode_cls : decode 0x00E0 = .insn (.cls 0) := by decide
theorem test_decode_cls_ignored : decode 0x0AE0 = .insn (.cls 0xA) := by decide
theorem test_decode_ret : decode 0x00EE = .insn (.ret 0) := by decide
theorem test_decode_ret_ignored : decode 0x07EE = .insn (.ret 7) := by decide
theorem test_decode_jp : decode 0x1ABC = .insn (.jp 0xABC) := by decide
theorem test_decode_call : decode 0x2ABC = .insn (.call 0xABC) := by decide
theorem test_decode_seImm : decode 0x3A7F = .insn (.seImm 0xA 0x7F) := by decide
theorem test_decode_sneImm : decode 0x4A7F = .insn (.sneImm 0xA 0x7F) := by decide
theorem test_decode_seReg : decode 0x5AB0 = .insn (.seReg 0xA 0xB 0) := by decide
theorem test_decode_seReg_ignored : decode 0x5AB7 = .insn (.seReg 0xA 0xB 7) := by decide
theorem test_decode_ldImm : decode 0x6A7F = .insn (.ldImm 0xA 0x7F) := by decide
theorem test_decode_addImm : decode 0x7A7F = .insn (.addImm 0xA 0x7F) := by decide
theorem test_decode_ldReg : decode 0x8AB0 = .insn (.ldReg 0xA 0xB) := by decide
theorem test_decode_orReg : decode 0x8AB1 = .insn (.orReg 0xA 0xB) := by decide
theorem test_decode_andReg : decode 0x8AB2 = .insn (.andReg 0xA 0xB) := by decide
theorem test_decode_xorReg : decode 0x8AB3 = .insn (.xorReg 0xA 0xB) := by decide
theorem test_decode_addReg : decode 0x8AB4 = .insn (.addReg 0xA 0xB) := by decide
theorem test_decode_subReg : decode 0x8AB5 = .insn (.subReg 0xA 0xB) := by decide
theorem test_decode_shr : decode 0x8AB6 = .insn (.shr 0xA 0xB) := by decide
theorem test_decode_subnReg : decode 0x8AB7 = .insn (.subnReg 0xA 0xB) := by decide
theorem test_decode_shl : decode 0x8ABE = .insn (.shl 0xA 0xB) := by decide
theorem test_decode_sneReg : decode 0x9AB0 = .insn (.sneReg 0xA 0xB 0) := by decide
theorem test_decode_sneReg_ignored : decode 0x9AB7 = .insn (.sneReg 0xA 0xB 7) := by decide
theorem test_decode_ldI : decode 0xAABC = .insn (.ldI 0xABC) := by decide
theorem test_decode_jpV0 : decode 0xBABC = .insn (.jpV0 0xABC) := by decide
theorem test_decode_rnd : decode 0xCA7F = .insn (.rnd 0xA 0x7F) := by decide
theorem test_decode_drw : decode 0xDAB5 = .insn (.drw 0xA 0xB 5) := by decide
theorem test_decode_skp : decode 0xEA9E = .insn (.skp 0xA) := by decide
theorem test_decode_sknp : decode 0xEAA1 = .insn (.sknp 0xA) := by decide
theorem test_decode_ldVxDt : decode 0xFA07 = .insn (.ldVxDt 0xA) := by decide
theorem test_decode_ldVxK : decode 0xFA0A = .insn (.ldVxK 0xA) := by decide
theorem test_decode_ldDtVx : decode 0xFA15 = .insn (.ldDtVx 0xA) := by decide
theorem test_decode_ldStVx : decode 0xFA18 = .insn (.ldStVx 0xA) := by decide
theorem test_decode_addI : decode 0xFA1E = .insn (.addI 0xA) := by decide
theorem test_decode_ldF : decode 0xFA29 = .insn (.ldF 0xA) := by decide
theorem test_decode_ldB : decode 0xFA33 = .insn (.ldB 0xA) := by decide
theorem test_decode_ldMemVx : decode 0xFA55 = .insn (.ldMemVx 0xA) := by decide
theorem test_decode_ldVxMem : decode 0xFA65 = .insn (.ldVxMem 0xA) := by decide

/-- Words bit by bit from the patterns: `7003` adds 3 to V0 and `F033` stores V0's digits, both printed by the source. -/
theorem test_decode_bits_addImm :
    decode (bits [false, true, true, true, false, false, false, false, false, false, false, false, false, false, true, true])
      = .insn (.addImm 0 3) := by decide
theorem test_decode_bits_ldB :
    decode (bits [true, true, true, true, false, false, false, false, false, false, true, true, false, false, true, true])
      = .insn (.ldB 0) := by decide
theorem test_decode_bits_drw :
    decode (bits [true, true, false, true, false, false, false, true, false, false, true, false, true, true, true, true])
      = .insn (.drw 1 2 15) := by decide

/-! Unknown words (T22 to T25), and the table's words through the stored bytes. -/

theorem test_unknown_0000 : decode 0x0000 = .unknown 0x0000 := by decide
theorem test_unknown_0123 : decode 0x0123 = .unknown 0x0123 := by decide
theorem test_unknown_8008 : decode 0x8008 = .unknown 0x8008 := by decide
theorem test_unknown_801D : decode 0x801D = .unknown 0x801D := by decide
theorem test_unknown_800F : decode 0x800F = .unknown 0x800F := by decide
theorem test_unknown_E09F : decode 0xE09F = .unknown 0xE09F := by decide
theorem test_unknown_E1A0 : decode 0xE1A0 = .unknown 0xE1A0 := by decide
theorem test_unknown_F034 : decode 0xF034 = .unknown 0xF034 := by decide
theorem test_unknown_F085 : decode 0xF085 = .unknown 0xF085 := by decide
theorem test_unknown_FFFF : decode 0xFFFF = .unknown 0xFFFF := by decide
theorem test_table_word : decodeTableWord 16 0x1234 = some (.jp 0x234) := by decide
theorem test_table_unknown : decodeTableWord 16 0xFFFF = none := by decide

/-! ## Fetch (T26 to T29) -/

theorem test_fetch_odd : gives (step (start 0x201 0x6000)) (fun t => t.pc == 0x203) = true := by decide +kernel
theorem test_fetch_last : gives (step (start 0xFFE 0x6000)) (fun t => t.pc == 0x1000) = true := by decide +kernel
theorem test_fetch_beyond : faults (step (State.reset.setPc 0xFFF)) (.fetchAddressOutOfRange 0xFFF) = true := by decide +kernel
theorem test_fetch_bigEndian : fetchWord ((start 0x200 0).setMem [(0x200, 0x12), (0x201, 0x34)]) = some 0x1234 := by
  decide +kernel
theorem test_unknown_word : faults (step (start 0x300 0xFFFF)) (.unknownInstruction 0xFFFF 0x300) = true := by decide +kernel

/-! ## Control transfer (T30 to T39o) -/

theorem test_ret :
    gives (step { start 0x30A 0x07EE with stack := [0x400, 0x204] })
      (fun t => t.pc == 0x400 && t.stack == [0x204]) = true := by decide +kernel
theorem test_ret_empty :
    faults (step (start 0x200 0x00EE)) (.stackUnderflow 0x200) = true := by decide +kernel
theorem test_jp :
    gives (step (start 0x200 0x1FFF))
      (fun t => t.pc == 0xFFF) = true := by decide +kernel
theorem test_call :
    gives (step (start 0x202 0x2300))
      (fun t => t.pc == 0x300 && t.stack == [0x204]) = true := by decide +kernel
theorem test_call_full :
    faults (step { start 0x202 0x2300 with stack := deep 16 }) (.stackOverflow 0x202) = true := by decide +kernel
theorem test_seImm_taken :
    gives (step (start 0xFFE 0x3100))
      (fun t => t.pc == 0x1002) = true := by decide +kernel
theorem test_seImm_not :
    gives (step ((start 0x208 0x3100).setV 1 1))
      (fun t => t.pc == 0x20A) = true := by decide +kernel
theorem test_sneImm_not :
    gives (step ((start 0x200 0x4005).setV 0 5))
      (fun t => t.pc == 0x202) = true := by decide +kernel
theorem test_sneImm_taken :
    gives (step ((start 0x200 0x4006).setV 0 5))
      (fun t => t.pc == 0x204) = true := by decide +kernel
theorem test_seReg_taken :
    gives (step (((start 0x210 0x523F).setV 2 0x7F).setV 3 0x7F))
      (fun t => t.pc == 0x214) = true := by decide +kernel
theorem test_seReg_not :
    gives (step (((start 0x210 0x5230).setV 2 1).setV 3 2))
      (fun t => t.pc == 0x212) = true := by decide +kernel
theorem test_sneReg_taken :
    gives (step (((start 0x210 0x9230).setV 2 1).setV 3 2))
      (fun t => t.pc == 0x214) = true := by decide +kernel
theorem test_sneReg_not :
    gives (step ((start 0x210 0x9227).setV 2 1))
      (fun t => t.pc == 0x212) = true := by decide +kernel
theorem test_jpV0_largest :
    gives (step ((start 0x200 0xBFFF).setV 0 0xFF))
      (fun t => t.pc == 0x10FE) = true := by decide +kernel
theorem test_jpV0_v0 :
    gives (step (((start 0x200 0xB2FF).setV 0 1).setV 2 0x55))
      (fun t => t.pc == 0x300) = true := by decide +kernel

/-! ## Arithmetic and logic (T40 to T73) -/

theorem test_ldImm_vf :
    gives (step (start 0x200 0x6FAB))
      (fun t => t.getV 0xF == 0xAB && t.pc == 0x202) = true := by decide +kernel
theorem test_addImm_wraps :
    gives (step ((start 0x200 0x7001).setV 0 0xFF))
      (fun t => t.getV 0 == 0 && t.getV 0xF == 0) = true := by decide +kernel
theorem test_addImm_vf :
    gives (step ((start 0x200 0x7F01).setV 0xF 0xFF))
      (fun t => t.getV 0xF == 0) = true := by decide +kernel
theorem test_ldReg :
    gives (step ((start 0x200 0x8010).setV 1 0x2A))
      (fun t => t.getV 0 == 0x2A) = true := by decide +kernel
theorem test_orReg :
    gives (step ((((start 0x200 0x8011).setV 0 0xF0).setV 1 0x0F).setV 0xF 7))
      (fun t => t.getV 0 == 0xFF && t.getV 0xF == 7) = true := by decide +kernel
theorem test_andReg :
    gives (step ((((start 0x200 0x8012).setV 0 0xF0).setV 1 0x3C).setV 0xF 7))
      (fun t => t.getV 0 == 0x30 && t.getV 0xF == 7) = true := by decide +kernel
theorem test_xorReg :
    gives (step ((((start 0x200 0x8013).setV 0 0xFF).setV 1 0x0F).setV 0xF 7))
      (fun t => t.getV 0 == 0xF0 && t.getV 0xF == 7) = true := by decide +kernel
theorem test_addReg_carry :
    gives (step (((start 0x200 0x80F4).setV 0 0xFF).setV 0xF 1))
      (fun t => t.getV 0 == 0 && t.getV 0xF == 1) = true := by decide +kernel
theorem test_addReg_vf :
    gives (step (((start 0x200 0x8F14).setV 0xF 5).setV 1 2))
      (fun t => t.getV 0xF == 0) = true := by decide +kernel
theorem test_subReg_borrow :
    gives (step (((start 0x200 0x8015).setV 0 0).setV 1 1))
      (fun t => t.getV 0 == 0xFF && t.getV 0xF == 0) = true := by decide +kernel
theorem test_subReg_equal :
    gives (step (((start 0x200 0x8015).setV 0 5).setV 1 5))
      (fun t => t.getV 0 == 0 && t.getV 0xF == 1) = true := by decide +kernel
theorem test_shr :
    gives (step (((start 0x200 0x8016).setV 0 0xFF).setV 1 0x55))
      (fun t => t.getV 0 == 0x7F && t.getV 1 == 0x55 && t.getV 0xF == 1) = true := by decide +kernel
theorem test_shr_vf :
    gives (step ((start 0x200 0x8F06).setV 0xF 2))
      (fun t => t.getV 0xF == 0) = true := by decide +kernel
theorem test_subnReg :
    gives (step (((start 0x200 0x8107).setV 1 1).setV 0 0xFF))
      (fun t => t.getV 1 == 0xFE && t.getV 0xF == 1) = true := by decide +kernel
theorem test_subnReg_borrow :
    gives (step (((start 0x200 0x8107).setV 1 2).setV 0 1))
      (fun t => t.getV 1 == 0xFF && t.getV 0xF == 0) = true := by decide +kernel
theorem test_shl :
    gives (step ((start 0x200 0x800E).setV 0 0x81))
      (fun t => t.getV 0 == 2 && t.getV 0xF == 1) = true := by decide +kernel
theorem test_shl_noCarry :
    gives (step ((start 0x200 0x800E).setV 0 0x40))
      (fun t => t.getV 0 == 0x80 && t.getV 0xF == 0) = true := by decide +kernel
/-- T72 with mask 00: the result is 00 whatever byte is drawn. -/
theorem test_rnd_mask0 (s : State) : ∃ t, exec (.rnd 0 0) s = .next t ∧ t.getV 0 = 0 := by
  refine ⟨_, rfl, ?_⟩
  simp [State.setV, State.getV]

/-! ## The index register and memory (T80 to T105) -/

theorem test_ldI :
    gives (step (start 0x200 0xAFFF))
      (fun t => t.i == 0xFFF) = true := by decide +kernel
theorem test_addI_overflow :
    gives (step { (start 0x200 0xF01E).setV 0 1 with i := 0xFFF })
      (fun t => t.i == 0 && t.getV 0xF == 1) = true := by decide +kernel
theorem test_addI_vf :
    gives (step { (start 0x200 0xFF1E).setV 0xF 1 with i := 0xFFE })
      (fun t => t.i == 0xFFF && t.getV 0xF == 0) = true := by decide +kernel
theorem test_ldF :
    gives (step ((start 0x200 0xF129).setV 1 5))
      (fun t => t.i == 0x019) = true := by decide +kernel
theorem test_ldF_lowNibble :
    gives (step ((start 0x200 0xF129).setV 1 0x1A))
      (fun t => t.i == 0x032) = true := by decide +kernel
theorem test_ldB :
    gives (step { (start 0x200 0xF033).setV 0 0x9D with i := 0x300 })
      (fun t => Memory.readBytes t.mem 0x300 3 == [1, 5, 7] && t.i == 0x300) = true := by decide +kernel
theorem test_ldB_outside :
    faults (step { (start 0x200 0xF033).setV 0 0x7B with i := 0xFFE }) (.dataAddressOutOfRange 0x1000 0x200) = true := by decide +kernel
theorem test_ldMemVx :
    gives (step { ((start 0x200 0xF155).setV 0 0x7F).setV 1 0xFE with i := 0x0FD })
      (fun t => Memory.readBytes t.mem 0xFD 3 == [0x7F, 0xFE, 0] && t.i == 0x0FD) = true := by decide +kernel
theorem test_ldMemVx_font :
    gives (step (start 0x200 0xF055))
      (fun t => Memory.readBytes t.mem 0 3 == [0, 0x90, 0x90]) = true := by decide +kernel
theorem test_ldVxMem :
    gives (step { (start 0x200 0xF265).setV 3 0x33 with i := 0x300, mem := [(0x200, 0xF2), (0x201, 0x65), (0x300, 1), (0x301, 5), (0x302, 7), (0x303, 9)] })
      (fun t => t.v.toList.take 4 == [1, 5, 7, 0x33] && t.i == 0x300) = true := by decide +kernel
theorem test_ldVxMem_font :
    gives (step (start 0x200 0xFF65))
      (fun t => t.v.toList.take 5 == [0xF0, 0x90, 0x90, 0x90, 0xF0] && t.getV 0xF == 0xF0) = true := by decide +kernel

/-! ## Display (T110 to T129c) -/

theorem test_cls :
    gives (step { (start 0x200 0x0AE0).setV 0xF 1 with fb := lit [1, 2, 3] })
      (fun t => t.fb == blankScreen && t.redraw && t.getV 0xF == 1) = true := by decide +kernel
theorem test_drw_glyph0 :
    gives (step (start 0x200 0xD015))
      (fun t => t.fb == lit [0, 1, 2, 3, 64, 67, 128, 131, 192, 195, 256, 257, 258, 259] && t.getV 0xF == 0 && t.redraw) = true := by decide +kernel
theorem test_drw_clipped :
    gives (step (((start 0x200 0xD015).setV 0 0x3E).setV 1 0x1E))
      (fun t => t.fb == lit [1982, 1983, 2046] && t.getV 0xF == 0) = true := by decide +kernel

/-! ## Keypad and timers (T140 to T159) -/

theorem test_skp :
    gives (step { (start 0x220 0xE29E).setV 2 0x0A with key := pressed 0xA })
      (fun t => t.pc == 0x224) = true := by decide +kernel
theorem test_skp_outside :
    faults (step ((start 0x220 0xE29E).setV 2 0x10)) (.keyIndexOutOfRange 0x10 0x220) = true := by decide +kernel
theorem test_sknp :
    gives (step ((start 0x220 0xE2A1).setV 2 0x0A))
      (fun t => t.pc == 0x224) = true := by decide +kernel
theorem test_sknp_outside :
    faults (step ((start 0x220 0xE2A1).setV 2 0xFF)) (.keyIndexOutOfRange 0xFF 0x220) = true := by decide +kernel
theorem test_ldVxDt :
    gives (step { start 0x220 0xF307 with dt := 0x3C })
      (fun t => t.getV 3 == 0x3C && t.dt == 0x3C) = true := by decide +kernel
theorem test_ldDtVx :
    gives (step ((start 0x220 0xF015).setV 0 0x3C))
      (fun t => t.dt == 0x3C && t.pc == 0x222) = true := by decide +kernel
theorem test_ldStVx :
    gives (step ((start 0x220 0xF018).setV 0 0x3C))
      (fun t => t.st == 0x3C && t.reply == .nothing) = true := by decide +kernel
theorem test_ldVxK_waits :
    gives (step (start 0x220 0xF50A))
      (fun t => t == start 0x220 0xF50A) = true := by decide +kernel
theorem test_ldVxK_ends :
    gives (step { start 0x220 0xF50A with key := pressed 7 })
      (fun t => t.getV 5 == 7 && t.pc == 0x222 && t.key == pressed 7) = true := by decide +kernel

/-! ## Operations of the host (T132 to T139c, T156) -/

theorem test_tick_edge : gives (perform .tick { State.reset with dt := 2, st := 1 })
    (fun t => t.dt == 1 && t.st == 0 && t.reply == .soundEdge true) = true := by decide +kernel
theorem test_tick_noEdge : replies (perform .tick { State.reset with dt := 1, st := 0 }) (.soundEdge false) = true := by
  decide +kernel
theorem test_load : gives (perform (.load [0x60, 0x05, 0x70]) State.reset)
    (fun t => Memory.readBytes t.mem 0x1FF 5 == [0, 0x60, 0x05, 0x70, 0]) = true := by decide +kernel
theorem test_load_tooLarge : gives (perform (.load (List.replicate 0xE01 0xAA)) State.reset)
    (fun t => t.reply == .programTooLarge 0xE01 && t.mem == []) = true := by decide +kernel
theorem test_keySet : gives (perform (.keySet 3) State.reset) (fun t => t.key == pressed 3) = true := by decide +kernel
theorem test_keyClear : gives (perform (.keyClear 3) { State.reset with key := pressed 3 })
    (fun t => t.key == State.reset.key) = true := by decide +kernel
theorem test_keySet_outside : replies (perform (.keySet 16) State.reset) (.hostKeyIndexOutOfRange 16) = true := by
  decide +kernel
theorem test_keyClear_outside : replies (perform (.keyClear (-1)) State.reset) (.hostKeyIndexOutOfRange (-1)) = true := by
  decide +kernel
theorem test_renderRead : gives (perform .renderRead { State.reset with fb := lit [5], redraw := true })
    (fun t => t.reply == .frame (lit [5]) && !t.redraw && t.fb == lit [5]) = true := by decide +kernel
theorem test_renderRead_none : replies (perform .renderRead State.reset) .noFrame = true := by decide +kernel
theorem test_reset : gives (perform .reset (start 0x300 0xFFFF)) (fun t => t == State.reset) = true := by decide +kernel
/-- A machine with another font: RESET re-loads its glyphs 1 to F, and glyph 0 is the source's. -/
theorem test_reset_otherFont : gives (perform .reset { start 0x300 0xFFFF with font := Vector.replicate 75 0xAA })
    (fun t => Memory.readBytes t.mem 3 3 == [0x90, 0xF0, 0xAA] && Memory.readBytes t.mem 0x4F 2 == [0xAA, 0]) = true := by
  decide +kernel
/-- A host that ticks between cycles for ever: with the loop TICK, CYCLE every second step is a TICK (R290). -/
theorem test_host_loop : (afterSteps 5 { start 0x200 0x1200 with dt := 9, hostRest := .loop [.tick, .cycle] }).dt = 6 := by
  decide +kernel
theorem test_withFetchWord : gives (step (State.reset.withFetchWord 16 0x6005)) (fun t => t.getV 0 == 5) = true := by
  decide +kernel

/-! ## Witnesses: for every statement with hypotheses, values that meet them all

Each clause of a statement is met at a boundary of its range. A theorem's name is that of its statement. -/

/-- The machine at the largest values the invariant allows: the stack full, `pc` at the last instruction. -/
def brink : State := { (start 0xFFE 0xBFFF).setV 0 0xFF with stack := List.replicate 16 0x1000 }

theorem brink_inv : MachineInv brink :=
  ⟨by decide +kernel, by decide +kernel, fun w hw => by rw [List.eq_of_mem_replicate hw]; decide, by decide +kernel⟩

theorem test_witness_ResetLeavesResetValues :
    (∃ t, brink.font = defaultFont ∧ perform .reset brink = .next t) ∧
    State.reset = State.powerOn defaultFont := ⟨⟨_, rfl, rfl⟩, by decide +kernel⟩
theorem test_witness_StepKeepsFont : ∃ t, step { brink with font := Vector.replicate 75 0xAA } = .next t :=
  completes (by decide +kernel)
theorem test_witness_StepKeepsInvariant : MachineInv brink ∧ ∃ t, step brink = .next t ∧ t.pc = 0x10FE :=
  ⟨brink_inv, next_of_gives (by decide +kernel)⟩
theorem test_witness_EncodeOfDecodeIsIdentity : decode 0x0FEE = .insn (.ret 0xF) := by decide
theorem test_witness_WordDecodesByItsRow :
    (0x8F1E : Word) &&& (opcodeRow (.shl 0 0)).1 = (opcodeRow (.shl 0 0)).2 ∧
    ¬ ((0x8F1F : Word) &&& (opcodeRow (.shl 0 0)).1 = (opcodeRow (.shl 0 0)).2) := by decide
theorem test_witness_UnknownWordsAreThese :
    decode 0x00E1 = .unknown 0x00E1 ∧ decode 0x8008 = .unknown 0x8008 ∧ decode 0xE09F = .unknown 0xE09F ∧
    decode 0xF008 = .unknown 0xF008 ∧ decode 0x8000 ≠ .unknown 0x8000 := by decide
theorem test_witness_FetchIsBigEndian : (State.reset.setPc 0xFFE).pc.toNat ≤ 0xFFE := by decide
theorem test_witness_StepRunsDecodedInstruction :
    (nextOp brink).1 = .cycle ∧ (nextOp { brink with hostRest := .loop [.cycle, .tick] }).1 = .cycle ∧
    (nextOp { brink with schedule := [.cycle], hostRest := .free 0 }).1 = .cycle ∧ brink.pc.toNat ≤ 0xFFE ∧
    decode (wordOfBytes (Memory.read brink.mem brink.pc.toNat) (Memory.read brink.mem (brink.pc.toNat + 1)))
      = .insn (.jpV0 0xFFF) := by decide +kernel
theorem test_witness_StepStopsOnUnknownWord :
    (nextOp (State.reset.setPc 0xFFE)).1 = .cycle ∧ (State.reset.setPc 0xFFE).pc.toNat ≤ 0xFFE ∧
    wordOfBytes (Memory.read [] 0xFFE) (Memory.read [] 0xFFF) = 0 ∧ decode 0 = .unknown 0 := by decide +kernel
theorem test_witness_StepStopsOnFetchOutOfRange :
    (nextOp (State.reset.setPc 0xFFF)).1 = .cycle ∧ 0xFFE < (State.reset.setPc 0xFFF).pc.toNat ∧
    ¬ 0xFFE < (State.reset.setPc 0xFFE).pc.toNat := by decide
theorem test_witness_StepPerformsScheduledOperation :
    ({ State.reset with schedule := [.tick, .cycle] } : State).schedule = .tick :: [.cycle] ∧
    State.reset.schedule = [] ∧ State.reset.hostRest = .loop [] ∧
    ({ State.reset with hostRest := .loop [.tick, .cycle] } : State).hostRest = .loop (.tick :: [.cycle]) ∧
    ({ State.reset with hostRest := .free 0 } : State).hostRest = .free 0 ∧
    (nextOp { State.reset with hostRest := .loop [.tick, .cycle] }).1 ≠ .cycle := by decide
theorem test_witness_ExecutionFaultsAreThese :
    16 ≤ ({ State.reset with stack := deep 16 } : State).stack.length ∧ State.reset.stack = [] ∧
    (1 ≤ dataCount (.ldB 0) ∧ 0xFFF < dataAddress (State.reset.setI 0xFFE) + dataCount (.ldB 0) - 1) ∧
    (1 ≤ dataCount (.drw 0 1 1) ∧ ¬ 0xFFF < dataAddress (State.reset.setI 0xFFF) + dataCount (.drw 0 1 1) - 1) ∧
    15 < ((State.reset.setV 2 0x10).getV 2).toNat := by decide +kernel
theorem test_witness_FaultRepeats :
    perform .cycle State.reset = .fault (.unknownInstruction 0 0x200) ∧ (∃ t, perform .tick State.reset = .next t) ∧
    (∃ t, perform (.keySet 15) State.reset = .next t) ∧ (∃ t, perform (.keyClear 16) State.reset = .next t) ∧
    (∃ t, perform .renderRead State.reset = .next t) :=
  ⟨fault_of_faults (by decide +kernel), ⟨_, rfl⟩, ⟨_, rfl⟩, ⟨_, rfl⟩, ⟨_, rfl⟩⟩
theorem test_witness_JumpSetsPc : (0x1FFF : Word) &&& 0xF000 = 0x1000 := by decide
theorem test_witness_CallPushesReturnAddress :
    (0x2FFF : Word) &&& 0xF000 = 0x2000 ∧ ({ State.reset with stack := deep 15 } : State).stack.length < 16 ∧
    16 ≤ ({ State.reset with stack := deep 16 } : State).stack.length := by decide
theorem test_witness_ReturnPopsPc :
    (0x0FEE : Word) &&& 0xF0FF = 0x00EE ∧ ({ State.reset with stack := deep 1 } : State).stack = 0x204 :: [] ∧
    State.reset.stack = [] := by decide
theorem test_witness_ReturnUndoesCall : ({ State.reset with stack := deep 15 } : State).stack.length < 16 := by decide
theorem test_witness_NestedCallsAndReturns :
    State.reset.stack = [] ∧ (List.replicate 15 (0x202 : Addr)).length < 16 ∧
    16 ≤ (List.replicate 16 (0x202 : Addr)).length := by decide
theorem test_witness_SkipOnImmediate :
    (0x3FFF : Word) &&& 0xF000 = 0x3000 ∧ (0x4FFF : Word) &&& 0xF000 = 0x4000 := by decide
theorem test_witness_SkipOnRegisters :
    (0x5ABF : Word) &&& 0xF000 = 0x5000 ∧ (0x9ABF : Word) &&& 0xF000 = 0x9000 := by decide
theorem test_witness_JumpWithOffset : (0xBFFF : Word) &&& 0xF000 = 0xB000 := by decide
theorem test_witness_LoadImmediate : (0x6FFF : Word) &&& 0xF000 = 0x6000 := by decide
theorem test_witness_AddImmediateWrapsWithoutFlag :
    (0x7FFF : Word) &&& 0xF000 = 0x7000 ∧ (0 : Nibble) ≠ 0xF := by decide
theorem test_witness_CopyAndLogic :
    (0x8FF0 : Word) &&& 0xF00F = 0x8000 ∧ (0x8FF1 : Word) &&& 0xF00F = 0x8001 ∧
    (0x8FF2 : Word) &&& 0xF00F = 0x8002 ∧ (0x8FF3 : Word) &&& 0xF00F = 0x8003 ∧
    decode 0x8FF3 = .insn (.xorReg 0xF 0xF) := by decide
theorem test_witness_AddRegistersWithCarry : (0xE : Nibble) ≠ vf ∧ 255 < (0xFF : Byte).toNat + (0x01 : Byte).toNat := by decide
theorem test_witness_SubtractWithNoBorrowFlag :
    (0xE : Nibble) ≠ vf ∧ State.reset.getV 0xE = 0 ∧ State.reset.getV 0xF = 0 := by decide +kernel
theorem test_witness_ShiftsInPlace : (0xE : Nibble) ≠ vf := by decide
theorem test_witness_RandomByteIsMasked : (0xCFFF : Word) &&& 0xF000 = 0xC000 := by decide
theorem test_witness_LoadIndexAndFontAddress :
    (0xAFFF : Word) &&& 0xF000 = 0xA000 ∧ (0xFF29 : Word) &&& 0xF0FF = 0xF029 := by decide
theorem test_witness_StoreDecimalDigits :
    Memory.wf State.reset.mem ∧ dataAddress (State.reset.setI 0xFFD) = 0xFFD ∧ 0xFFD + 2 ≤ 0xFFF := by decide +kernel
theorem test_witness_StoreRegisters :
    Memory.wf State.reset.mem ∧ dataAddress (State.reset.setI 0xFF0) = 0xFF0 ∧ 0xFF0 + (0xF : Nibble).toNat ≤ 0xFFF := by
  decide +kernel
theorem test_witness_LoadRegisters : dataAddress (State.reset.setI 0xFF0) + (0xF : Nibble).toNat ≤ 0xFFF := by decide +kernel
theorem test_witness_LoadAfterStoreRestores : ∃ t w,
    Memory.wf brink.mem ∧ exec (.ldMemVx 0xF) { brink with i := 0xFF0 } = .next t ∧
    exec (.ldVxMem 0xF) t = .next w ∧ t.i = 0xFF0 := by
  obtain ⟨t, h1, h2, h3⟩ := next_of_gives (r := exec (.ldMemVx 0xF) { brink with i := 0xFF0 })
    (p := fun t => gives (exec (.ldVxMem 0xF) t) (fun _ => true) = true ∧ t.i = 0xFF0) (by decide +kernel)
  obtain ⟨w, hw⟩ := completes h2
  exact ⟨t, w, brink_inv.memory, h1, hw, h3⟩
theorem test_witness_StoreIsFetchedNext : ∃ t,
    Memory.wf State.reset.mem ∧ 1 ≤ (1 : Nibble).toNat ∧ (0xFFC : Word).toNat ≤ 0xFFC ∧
    dataAddress { State.reset with pc := 0xFFC, i := 0xFFE } = (0xFFC : Word).toNat + 2 ∧
    exec (.ldMemVx 1) { State.reset with pc := 0xFFC, i := 0xFFE } = .next t := by
  obtain ⟨t, h⟩ := completes (r := exec (.ldMemVx 1) { State.reset with pc := 0xFFC, i := 0xFFE }) (by decide +kernel)
  exact ⟨t, by decide +kernel, by decide, by decide, by decide, h⟩
theorem test_witness_ClearScreen : (0x0FE0 : Word) &&& 0xF0FF = 0x00E0 := by decide
theorem test_witness_DrawXorsSprite :
    (0 : Nibble) = 0 ∧ dataAddress (State.reset.setI 0xFF1) + (0xF : Nibble).toNat - 1 ≤ 0xFFF ∧
    ¬ dataAddress (State.reset.setI 0xFF2) + (0xF : Nibble).toNat - 1 ≤ 0xFFF := by decide +kernel
theorem test_witness_DrawXorsSprite_collides :
    Collides (((({ State.reset with fb := lit [2047], mem := [(0x300, 0x80)] }).setI 0x300).setV 0 63).setV 1 31) 0 1 1 :=
  ⟨63, 31, by decide +kernel⟩
theorem test_witness_DrawXorsSprite_apart : ¬ Collides State.reset 0 1 1 := by
  rintro ⟨qx, qy, -, -, h, -⟩
  simp [State.reset] at h
theorem test_witness_DrawTwiceRestores : ∃ t u, (0 : Nibble) ≠ vf ∧ (1 : Nibble) ≠ vf ∧
    exec (.drw 0 1 5) State.reset = .next t ∧ exec (.drw 0 1 5) t = .next u ∧
    (∀ k, k < 2048 → getPixel State.reset.fb k = false) := by
  obtain ⟨t, h1, h2⟩ := next_of_gives (r := exec (.drw 0 1 5) State.reset)
    (p := fun t => gives (exec (.drw 0 1 5) t) (fun _ => true) = true) (by decide +kernel)
  obtain ⟨u, hu⟩ := completes h2
  exact ⟨t, u, by decide, by decide, h1, hu, fun k _ => by simp [State.reset]⟩
theorem test_witness_SkipOnKey :
    ((State.reset.setV 2 0xF).getV 2).toNat = (15 : Fin 16).val ∧ 15 < ((State.reset.setV 2 0x10).getV 2).toNat := by
  decide +kernel
theorem test_witness_TimerReadAndWrite :
    (0xFF07 : Word) &&& 0xF0FF = 0xF007 ∧ (0xFF15 : Word) &&& 0xF0FF = 0xF015 ∧
    (0xFF18 : Word) &&& 0xF0FF = 0xF018 := by decide
theorem test_witness_KeyWaitHolds : ∀ k : Fin 16, State.reset.key[k] = false := by decide +kernel
theorem test_witness_KeyWaitEnds :
    (pressed 15)[(15 : Fin 16)] = true ∧ (∀ j : Fin 16, (pressed 15)[j] = true → j = 15) ∧
    ((pressed 15).set 0 true)[(0 : Fin 16)] = true := by decide +kernel
theorem test_witness_OnlySevenInstructionsWriteFlag :
    (∃ t, exec (.addReg 0xF 1) State.reset = .next t) ∧ writesFlag (.addReg 0xF 1) = true ∧
    (∃ t, exec (.ldVxMem 0xE) State.reset = .next t) ∧ writesFlag (.ldVxMem 0xE) = false ∧
    ¬ hasDestination (.ldVxMem 0xE) vf :=
  ⟨completes (by decide +kernel), rfl, completes (by decide +kernel), rfl, by show ¬ vf ≤ (0xE : Nibble); decide⟩
theorem test_witness_RegistersWrittenAreDestinations :
    (∃ t, exec (.ldVxMem 0xD) State.reset = .next t) ∧ ¬ hasDestination (.ldVxMem 0xD) 0xE ∧
    ¬ (writesFlag (.ldVxMem 0xD) = true ∧ (0xE : Nibble) = vf) :=
  ⟨completes (by decide +kernel), by show ¬ (0xE : Nibble) ≤ 0xD; decide, by decide⟩
theorem test_witness_InstructionsWriteOnlyTheirParts : ∃ t, exec (.ldB 0) (State.reset.setI 0xFFD) = .next t :=
  completes (by decide +kernel)
theorem test_witness_CycleNeverDoes :
    (∃ t, perform .cycle ((start 0xFFE 0xF015).setV 0 0x3C) = .next t ∧ t.dt = 0x3C) ∧
    (∃ t, perform .cycle ((start 0xFFE 0xF018).setV 0 0x3C) = .next t ∧ t.st = 0x3C) ∧
    (∃ t, perform .cycle { start 0xFFE 0x1FFF with redraw := true } = .next t ∧ t.redraw = true) :=
  ⟨next_of_gives (by decide +kernel), next_of_gives (by decide +kernel), next_of_gives (by decide +kernel)⟩
theorem test_witness_PcAfterInstruction :
    (∃ t, exec (.cls 0) State.reset = .next t) ∧ setsPc (.cls 0) = false ∧
    (∃ t, exec (.call 0xFFF) State.reset = .next t) ∧ (∃ t, exec (.jpV0 0xFFF) State.reset = .next t) ∧
    (∃ t, exec (.ret 0xF) { State.reset with stack := deep 1 } = .next t) ∧
    (∃ t, exec (.ldVxK 0xF) State.reset = .next t) ∧
    (∃ t, exec (.skp 0) State.reset = .next t) ∧ (∃ t, exec (.seImm 0 0) State.reset = .next t) ∧
    (∃ t, exec (.sneReg 0 0 0xF) State.reset = .next t) :=
  ⟨completes (by decide +kernel), rfl, completes (by decide +kernel), completes (by decide +kernel),
    completes (by decide +kernel), completes (by decide +kernel), completes (by decide +kernel),
    completes (by decide +kernel), completes (by decide +kernel)⟩
theorem test_witness_SoundEdgeIsOneToZero :
    (∃ t, perform .tick { State.reset with st := 1 } = .next t ∧ t.st = 0) ∧
    (∃ t, perform .cycle ((start 0x200 0xF018).setV 0 0) = .next t) :=
  ⟨next_of_gives (by decide +kernel), completes (by decide +kernel)⟩
theorem test_witness_TicksInARow : (60 : Byte).toNat - 60 = 0 ∧ 59 < 60 ∧ 59 + 1 = (60 : Byte).toNat := by decide
theorem test_witness_LoadWritesProgram :
    Memory.wf State.reset.mem ∧ (List.replicate 0xE00 (0xAA : Byte)).length ≤ 0xE00 ∧
    0xE00 < (List.replicate 0xE01 (0xAA : Byte)).length := by decide +kernel
theorem test_witness_KeyOperationsWriteLatch :
    (0 ≤ (15 : Int) ∧ (15 : Int) ≤ 15) ∧ ¬ (0 ≤ (16 : Int) ∧ (16 : Int) ≤ 15) ∧ ¬ (0 ≤ (-1 : Int) ∧ (-1 : Int) ≤ 15) ∧
    (∃ t, perform (.keyClear 14) { State.reset with key := pressed 15 } = .next t) ∧
    (pressed 15)[(15 : Fin 16)] = true ∧ HostOp.keyClear 14 ≠ .reset ∧
    HostOp.keyClear 14 ≠ .keyClear ((15 : Fin 16).val : Int) :=
  ⟨by decide, by decide, by decide, ⟨_, rfl⟩, by decide +kernel, by decide, by decide⟩
theorem test_witness_RenderReadGivesFrame :
    ({ State.reset with redraw := true } : State).redraw = true ∧ State.reset.redraw = false := by decide

end Sys2Proof.Tests
end

section
/-! The fields of a word overlap as `30_encoding.md` R71 says, and together they give the word. -/

namespace Sys2Proof

/-- `30_encoding.md` R71, `kk = y ++ n`. -/
theorem fieldKK_eq_fieldY_append_fieldN (w : Word) : fieldKK w = fieldY w ++ fieldN w := by
  apply BitVec.eq_of_toNat_eq
  rw [toNat_sideBySide, toNat_fieldKK, toNat_fieldY, toNat_fieldN]
  omega

/-- `30_encoding.md` R71, `nnn = x ++ kk`. -/
theorem fieldNNN_eq_fieldX_append_fieldKK (w : Word) : fieldNNN w = fieldX w ++ fieldKK w := by
  apply BitVec.eq_of_toNat_eq
  rw [toNat_sideBySide, toNat_fieldNNN, toNat_fieldX, toNat_fieldKK]
  omega

theorem toNat_eq_sum_of_nibbles (w : Word) :
    w.toNat = (fieldClass w).toNat * 4096 + (fieldX w).toNat * 256 + (fieldY w).toNat * 16 + (fieldN w).toNat :=
  calc w.toNat
    _ = (fieldClass w ++ fieldX w ++ fieldY w ++ fieldN w : Word).toNat := by rw [word_of_xyn]
    _ = _ := toNat_classXyn ..

/-- Settles O9, from each field as a number, the two overlaps and the word as its four nibbles. -/
theorem decoderFieldsAreTheBits : Obligations.DecoderFieldsAreTheBits := fun w =>
  ⟨toNat_fieldClass w, toNat_fieldX w, toNat_fieldY w, toNat_fieldN w, toNat_fieldKK w, toNat_fieldNNN w,
    fieldKK_eq_fieldY_append_fieldN w, fieldNNN_eq_fieldX_append_fieldKK w, toNat_eq_sum_of_nibbles w⟩

end Sys2Proof
end

section
/-! Frame rules: an update of a piece of state that `ps` names is invisible to `UnchangedExcept ps`, so `simp` peels the
updates of an instruction off one by one. -/

namespace Sys2Proof.Machine

variable {ps : List Part} {s t : State}

@[simp] theorem unchangedExcept_refl : UnchangedExcept ps s s := fun p _ => by cases p <;> simp [Same]

/-- A frame holds of `u` when it holds of `t`, if `ps` names every piece in which they compare differently with `s`. -/
theorem unchangedExcept_congr {u : State} (h : ∀ p, p ∈ ps ∨ (Same p s u ↔ Same p s t)) :
    UnchangedExcept ps s u ↔ UnchangedExcept ps s t :=
  forall₂_congr fun p hp => (h p).resolve_left hp

theorem UnchangedExcept.mono {qs : List Part} (h : UnchangedExcept ps s t) (hsub : ps ⊆ qs) : UnchangedExcept qs s t :=
  fun p hp => h p fun hps => hp (hsub hps)

/-- The register file replaced as a whole (`43_index_memory.md` R176). -/
theorem unchangedExcept_withV (h : .regs ∈ ps) (v : Vector Byte 16) :
    UnchangedExcept ps s { t with v := v } ↔ UnchangedExcept ps s t :=
  unchangedExcept_congr fun p => by cases p <;> simp [Same, h]

@[simp] theorem unchangedExcept_setV (h : .regs ∈ ps) (x : Nibble) (b : Byte) :
    UnchangedExcept ps s (t.setV x b) ↔ UnchangedExcept ps s t := unchangedExcept_withV h _

@[simp] theorem unchangedExcept_setFlag (h : .regs ∈ ps) (f : Bool) :
    UnchangedExcept ps s (t.setFlag f) ↔ UnchangedExcept ps s t := unchangedExcept_setV h _ _

@[simp] theorem unchangedExcept_setResultAndFlag (h : .regs ∈ ps) (x : Nibble) (b : Byte) (f : Bool) :
    UnchangedExcept ps s (t.setResultAndFlag x b f) ↔ UnchangedExcept ps s t := by
  rw [State.setResultAndFlag, unchangedExcept_setFlag h, unchangedExcept_setV h]

@[simp] theorem unchangedExcept_setI (h : .index ∈ ps) (a : Addr) :
    UnchangedExcept ps s (t.setI a) ↔ UnchangedExcept ps s t :=
  unchangedExcept_congr fun p => by cases p <;> simp [Same, h]

@[simp] theorem unchangedExcept_setPc (h : .pc ∈ ps) (a : Word) :
    UnchangedExcept ps s (t.setPc a) ↔ UnchangedExcept ps s t :=
  unchangedExcept_congr fun p => by cases p <;> simp [Same, h]

@[simp] theorem unchangedExcept_advance (h : .pc ∈ ps) : UnchangedExcept ps s t.advance ↔ UnchangedExcept ps s t :=
  unchangedExcept_setPc h _

@[simp] theorem unchangedExcept_skipIf (h : .pc ∈ ps) (c : Bool) :
    UnchangedExcept ps s (t.skipIf c) ↔ UnchangedExcept ps s t := by
  cases c with
  | false => rfl
  | true => exact unchangedExcept_advance h

/-- The call stack replaced by another (`10_state.md` R33, R34). -/
theorem unchangedExcept_withStack (h : .stack ∈ ps) (l : List Word) :
    UnchangedExcept ps s { t with stack := l } ↔ UnchangedExcept ps s t :=
  unchangedExcept_congr fun p => by cases p <;> simp [Same, State.getV, h]

@[simp] theorem unchangedExcept_setDt (h : .dt ∈ ps) (b : Byte) :
    UnchangedExcept ps s (t.setDt b) ↔ UnchangedExcept ps s t :=
  unchangedExcept_congr fun p => by cases p <;> simp [Same, h]

@[simp] theorem unchangedExcept_setSt (h : .st ∈ ps) (b : Byte) :
    UnchangedExcept ps s (t.setSt b) ↔ UnchangedExcept ps s t :=
  unchangedExcept_congr fun p => by cases p <;> simp [Same, h]

@[simp] theorem unchangedExcept_setMem (h : .mem ∈ ps) (m : Memory) :
    UnchangedExcept ps s (t.setMem m) ↔ UnchangedExcept ps s t :=
  unchangedExcept_congr fun p => by cases p <;> simp [Same, h]

@[simp] theorem unchangedExcept_setScreen (h : .screen ∈ ps) (hr : .redraw ∈ ps) (f : FrameBuffer) :
    UnchangedExcept ps s (t.setScreen f) ↔ UnchangedExcept ps s t :=
  unchangedExcept_congr fun p => by cases p <;> simp [Same, h, hr]

@[simp] theorem unchangedExcept_countDraw (h : .draws ∈ ps) :
    UnchangedExcept ps s t.countDraw ↔ UnchangedExcept ps s t :=
  unchangedExcept_congr fun p => by cases p <;> simp [Same, h]

@[simp] theorem unchangedExcept_setReply (h : .reply ∈ ps) (r : Reply) :
    UnchangedExcept ps s (t.setReply r) ↔ UnchangedExcept ps s t :=
  unchangedExcept_congr fun p => by cases p <;> simp [Same, h]

@[simp] theorem unchangedExcept_setReply_left (h : .reply ∈ ps) (r : Reply) :
    UnchangedExcept ps (s.setReply r) t ↔ UnchangedExcept ps s t :=
  forall₂_congr fun p hp => by
    cases p with
    | reply => exact absurd h hp
    | _ => rfl

/-- The choice of the next operation touches nothing but what the host still has to do (log 7). -/
@[simp] theorem unchangedExcept_nextOp (h : .schedule ∈ ps) (hr : .hostRest ∈ ps) :
    UnchangedExcept ps s (nextOp t).2 ↔ UnchangedExcept ps s t := by
  obtain ⟨ops, rest, e⟩ := nextOp_keeps t
  rw [e]
  exact unchangedExcept_congr fun p => by cases p <;> simp [Same, State.getV, h, hr]

end Sys2Proof.Machine
end

section
/-! A step at a CYCLE runs the instruction fetched (`40_cycle.md` R100, R105). -/

namespace Sys2Proof.Machine

/-- A cycle whose two bytes at `pc` decode to an instruction is `exec` of it (`40_cycle.md` R105). -/
theorem cycle_eq_exec {s : State} {i : Instr} (hpc : s.pc.toNat ≤ 0xFFE)
    (hd : decode (wordOfBytes (Memory.read s.mem s.pc.toNat) (Memory.read s.mem (s.pc.toNat + 1))) = .insn i) :
    cycle s = exec i s := by
  simp only [cycle, fetchWord_inside s hpc, hd]

/-- Settles O14: the step is a cycle of the state with the CYCLE taken off, which has the same `pc` and memory. -/
theorem stepRunsDecodedInstruction : Obligations.StepRunsDecodedInstruction := by
  intro s i hop hpc hd
  refine ⟨?_, by simp⟩
  rw [step_cycle s hop]
  exact cycle_eq_exec (by simpa using hpc) (by simpa using hd)

end Sys2Proof.Machine
end

section
/-! What a cycle can change: the pieces of state its instruction may write, the timers only from a register, REDRAW only
to set it (`40_cycle.md` R108). -/

namespace Sys2Proof.Machine

variable {i : Instr} {s t : State}

/-- An instruction changes `pc` and the pieces of state it may write, and nothing else (`10_state.md` R24). -/
theorem exec_unchangedExcept (h : exec i s = .next t) : UnchangedExcept (.pc :: mayWrite i) s t := by
  cases i with
  | ret _ =>
    rcases execRet_cases s with ⟨-, e⟩ | ⟨w, rest, -, e⟩ <;> cases e.symm.trans h
    exact (unchangedExcept_withStack (t := s.setPc w) (by simp [mayWrite]) rest).mpr (by simp)
  | call nnn =>
    rcases execCall_cases s nnn with ⟨-, e⟩ | ⟨-, e⟩ <;> cases e.symm.trans h
    exact (unchangedExcept_withStack (t := s.setPc (jumpTarget nnn)) (by simp [mayWrite]) _).mpr (by simp)
  | drw x y n =>
    rcases execDrw_cases s x y n with ⟨-, -, e⟩ | ⟨-, d, -, e⟩ <;> cases e.symm.trans h
    simp [mayWrite]
  | skp x =>
    rcases execSkp_cases s x with ⟨_, e⟩ | ⟨-, e⟩ <;> cases e.symm.trans h
    simp
  | sknp x =>
    rcases execSknp_cases s x with ⟨_, e⟩ | ⟨-, e⟩ <;> cases e.symm.trans h
    simp
  | ldVxK x =>
    rcases execLdVxK_cases s x with ⟨-, e⟩ | ⟨_, _, -, rfl | rfl, e⟩ <;> cases e.symm.trans h <;> simp [mayWrite]
  | ldB x =>
    rcases execLdB_cases s x with ⟨-, e⟩ | ⟨-, e⟩ <;> cases e.symm.trans h
    simp [mayWrite]
  | ldMemVx x =>
    rcases execLdMemVx_cases s x with ⟨-, e⟩ | ⟨-, e⟩ <;> cases e.symm.trans h
    simp [mayWrite]
  | ldVxMem x =>
    rcases execLdVxMem_cases s x with ⟨-, e⟩ | ⟨-, e⟩ <;> cases e.symm.trans h
    exact (unchangedExcept_withV (by simp [mayWrite]) _).mpr (by simp)
  -- every other instruction has one outcome, a chain of named updates
  | _ => cases h; simp [mayWrite]

/-- The pieces of state that some instruction changes (`40_cycle.md` R108; `draws` is the model's own, log 5). -/
theorem pc_cons_mayWrite_subset (i : Instr) :
    .pc :: mayWrite i ⊆ [.mem, .regs, .index, .pc, .stack, .dt, .st, .screen, .redraw, .draws] := by
  cases i <;> simp [mayWrite]

theorem dt_mem_mayWrite : .dt ∈ mayWrite i ↔ ∃ x, i = .ldDtVx x := by cases i <;> simp [mayWrite]

theorem st_mem_mayWrite : .st ∈ mayWrite i ↔ ∃ x, i = .ldStVx x := by cases i <;> simp [mayWrite]

theorem redraw_mem_mayWrite : .redraw ∈ mayWrite i ↔ (∃ g, i = .cls g) ∨ ∃ x y n, i = .drw x y n := by
  cases i <;> simp [mayWrite]

/-- All an instruction can do to DT (`10_state.md` R35). -/
theorem exec_dt (h : exec i s = .next t) : t.dt = s.dt ∨ ∃ x, i = .ldDtVx x ∧ t.dt = s.getV x := by
  by_cases hp : .dt ∈ mayWrite i
  · obtain ⟨x, rfl⟩ := dt_mem_mayWrite.mp hp
    cases h
    exact .inr ⟨x, rfl, rfl⟩
  · exact .inl (exec_unchangedExcept h .dt (by simpa using hp))

/-- All an instruction can do to ST (`10_state.md` R36). -/
theorem exec_st (h : exec i s = .next t) : t.st = s.st ∨ ∃ x, i = .ldStVx x ∧ t.st = s.getV x := by
  by_cases hp : .st ∈ mayWrite i
  · obtain ⟨x, rfl⟩ := st_mem_mayWrite.mp hp
    cases h
    exact .inr ⟨x, rfl, rfl⟩
  · exact .inl (exec_unchangedExcept h .st (by simpa using hp))

/-- An instruction can only set REDRAW (`10_state.md` R40). -/
theorem exec_redraw (h : exec i s = .next t) : t.redraw = s.redraw ∨ t.redraw = true := by
  by_cases hp : .redraw ∈ mayWrite i
  · rcases redraw_mem_mayWrite.mp hp with ⟨g, rfl⟩ | ⟨x, y, n, rfl⟩
    · cases h
      exact .inr rfl
    · rcases execDrw_cases s x y n with ⟨-, -, e⟩ | ⟨-, d, -, e⟩ <;> cases e.symm.trans h
      exact .inr rfl
  · exact .inl (exec_unchangedExcept h .redraw (by simpa using hp))

/-- A cycle that completes has executed the instruction its fetched word decodes to (`40_cycle.md` R105). -/
theorem exec_of_cycle_eq_next (h : cycle s = .next t) :
    ∃ w i, fetchWord s = some w ∧ decode w = .insn i ∧ exec i s = .next t := by
  rcases cycle_cases s with ⟨-, e⟩ | ⟨-, w, hw, ⟨u, -, e⟩ | ⟨i, hd, e⟩⟩
  · cases e.symm.trans h
  · cases e.symm.trans h
  · exact ⟨w, i, hw, hd, e.symm.trans h⟩

/-- Settles O53, from what the executed instruction can do to each piece of state; the state it starts from is `s` with the
reply cleared. -/
theorem cycleNeverDoes : Obligations.CycleNeverDoes := by
  intro s t h
  obtain ⟨w, i, hw, hd, he⟩ := exec_of_cycle_eq_next (s := s.setReply .nothing) h
  have frame := (exec_unchangedExcept he).mono (pc_cons_mayWrite_subset i)
  refine ⟨?_, ?_, frame .keys (by decide), ?_, frame .reply (by decide), ?_⟩
  · exact (exec_dt he).imp_right fun ⟨x, hi, hx⟩ => ⟨w, x, hw, hi ▸ hd, hx⟩
  · exact (exec_st he).imp_right fun ⟨x, hi, hx⟩ => ⟨w, x, hw, hi ▸ hd, hx⟩
  · intro hr
    exact (exec_redraw he).elim (fun e => e.trans hr) id
  · exact (unchangedExcept_setReply_left (by decide) .nothing).mp (frame.mono (by decide))

end Sys2Proof.Machine
end

section
/-! The two instructions with an immediate operand that write a register and no flag (`42_alu.md` R140, R141). -/

namespace Sys2Proof

/-- Class 6 has one row in the opcode map (`30_encoding.md` R77). -/
theorem decode_ldImm_of_masked {w : Word} (h : w &&& 0xF000 = 0x6000) :
    decode w = .insn (.ldImm (fieldX w) (fieldKK w)) := by
  have hc : fieldClass w = 0x6#4 := class_of_masked w 0x6000 h
  simp [decode, hc]

/-- Class 7 has one row in the opcode map (`30_encoding.md` R77). -/
theorem decode_addImm_of_masked {w : Word} (h : w &&& 0xF000 = 0x7000) :
    decode w = .insn (.addImm (fieldX w) (fieldKK w)) := by
  have hc : fieldClass w = 0x7#4 := class_of_masked w 0x7000 h
  simp [decode, hc]

namespace Machine

/-- All that an instruction does whose one effect, besides moving on to the next instruction, is a register write
(`42_alu.md` R140 to R146). -/
theorem State.advance_setV_effect (s : State) (x : Nibble) (b : Byte) :
    (s.advance.setV x b).pc = s.pc + 2 ∧ (∀ r, (s.advance.setV x b).getV r = if r = x then b else s.getV r) ∧
      UnchangedExcept [.regs, .pc] s (s.advance.setV x b) :=
  ⟨rfl, fun r => s.advance.getV_setV x r b, by simp⟩

/-- Settles O29: the instruction is exactly a register write, of the immediate. -/
theorem loadImmediate : Obligations.LoadImmediate :=
  ⟨fun _ => decode_ldImm_of_masked, fun x kk s => ⟨_, rfl, s.advance_setV_effect x kk⟩⟩

/-- Settles O30: the instruction is exactly a register write, of the sum as a byte; the byte's addition is the one modulo
256. -/
theorem addImmediateWrapsWithoutFlag : Obligations.AddImmediateWrapsWithoutFlag := by
  refine ⟨fun _ => decode_addImm_of_masked, fun x kk s => ?_⟩
  obtain ⟨hpc, hv, frame⟩ := s.advance_setV_effect x (s.getV x + kk)
  refine ⟨_, rfl, hpc, ?_, fun r hr => (hv r).trans (if_neg hr), frame⟩
  rw [hv x, if_pos rfl, BitVec.toNat_add]

end Machine
end Sys2Proof
end

section
/-! LOAD writes the program image at 0x200 or rejects it whole (`46_host_operations.md` R221, R222). -/

namespace Sys2Proof.Machine

/-- All LOAD can do. -/
theorem opLoad_cases (bytes : List Byte) (s : State) :
    (0xE00 < bytes.length ∧ opLoad bytes s = s.setReply (.programTooLarge bytes.length)) ∨
      (bytes.length ≤ 0xE00 ∧
        opLoad bytes s = (s.setMem (Memory.writeBytes s.mem 0x200 bytes)).setReply .nothing) := by
  by_cases h : 0xE00 < bytes.length
  · exact .inl ⟨h, if_pos h⟩
  · exact .inr ⟨not_lt.mp h, if_neg h⟩

@[simp] theorem opLoad_key (bytes : List Byte) (s : State) : (opLoad bytes s).key = s.key := by
  rcases opLoad_cases bytes s with ⟨-, e⟩ | ⟨-, e⟩ <;> simp [e]

/-- A stored image is read back byte by byte (`20_memory.md` R55). -/
theorem Memory.read_writeBytes_getElem (m : Memory) (hm : Memory.wf m) (a : Nat) (bytes : List Byte)
    (h : a + bytes.length ≤ memSize) (k : Nat) (hk : k < bytes.length) :
    some (Memory.read (Memory.writeBytes m a bytes) (a + k)) = bytes[k]? := by
  rw [Memory.read_writeBytes m hm a bytes h, if_pos (by omega), Nat.add_sub_cancel_left]
  simp [hk]

/-- Settles O58, by the two things LOAD can do: an image that fits ends inside memory, so each of its bytes is stored. -/
theorem loadWritesProgram : Obligations.LoadWritesProgram := by
  intro bytes s hm
  refine ⟨_, rfl, ?_⟩
  rcases opLoad_cases bytes s with ⟨hlen, e⟩ | ⟨hlen, e⟩ <;> rw [e]
  · exact ⟨fun hfits => absurd hlen (not_lt.mpr hfits), fun _ => ⟨rfl, by simp⟩⟩
  · have inside : 0x200 + bytes.length ≤ memSize := by unfold memSize; omega
    exact ⟨fun _ => ⟨Memory.read_writeBytes_getElem s.mem hm 0x200 bytes inside,
      Memory.read_writeBytes_outside s.mem hm 0x200 bytes, rfl, by simp⟩, fun hbig => absurd hlen (not_le.mpr hbig)⟩

end Sys2Proof.Machine
end

section
/-! KEY_SET and KEY_CLEAR write their latch, and nothing else clears one but RESET (`46_host_operations.md` R224, R225). -/

namespace Sys2Proof.Machine

/-- The latches replaced as a whole (`10_state.md` R39). -/
theorem unchangedExcept_withKey {ps : List Part} {s t : State} (h : .keys ∈ ps) (latches : Vector Bool 16) :
    UnchangedExcept ps s { t with key := latches } ↔ UnchangedExcept ps s t :=
  unchangedExcept_congr fun p => by cases p <;> simp [Same, State.getV, h]

/-- All a write of a latch by the host can do. -/
theorem writeLatch_cases (k : Int) (b : Bool) (s : State) :
    ((0 ≤ k ∧ k ≤ 15) ∧
        writeLatch k b s = { s.setReply .nothing with key := s.key.setIfInBounds k.toNat b }) ∨
      (¬ (0 ≤ k ∧ k ≤ 15) ∧ writeLatch k b s = s.setReply (.hostKeyIndexOutOfRange k)) := by
  by_cases h : 0 ≤ k ∧ k ≤ 15
  · exact .inl ⟨h, if_pos h⟩
  · exact .inr ⟨h, if_neg h⟩

/-- A latch read after the host wrote one, for every integer: an index outside 0..15 is no latch's. -/
theorem getElem_key_writeLatch (k : Int) (b : Bool) (s : State) (j : Fin 16) :
    (writeLatch k b s).key[j] = if (j.val : Int) = k then b else s.key[j] := by
  rcases writeLatch_cases k b s with ⟨hk, e⟩ | ⟨hk, e⟩ <;> rw [e]
  · have same : k.toNat = j.val ↔ (j.val : Int) = k := by omega
    simp [Vector.getElem_setIfInBounds, same]
  · rw [if_neg (by omega), State.setReply_key]

/-- KEY_SET and KEY_CLEAR with an index in 0..15 change their latch alone; any other index is rejected. -/
theorem writeLatch_effect (k : Int) (b : Bool) (s : State) :
    (0 ≤ k ∧ k ≤ 15 →
      (∀ j : Fin 16, (writeLatch k b s).key[j] = if (j.val : Int) = k then b else s.key[j]) ∧
        (writeLatch k b s).reply = .nothing ∧ UnchangedExcept [.keys, .reply] s (writeLatch k b s)) ∧
      (¬ (0 ≤ k ∧ k ≤ 15) →
        (writeLatch k b s).reply = .hostKeyIndexOutOfRange k ∧ UnchangedExcept [.reply] s (writeLatch k b s)) := by
  have latches := getElem_key_writeLatch k b s
  rcases writeLatch_cases k b s with ⟨hin, e⟩ | ⟨hout, e⟩ <;> rw [e] at latches ⊢
  · exact ⟨fun _ => ⟨latches, rfl, (unchangedExcept_withKey (by simp) _).mpr (by simp)⟩, fun hout => absurd hin hout⟩
  · exact ⟨fun hin => absurd hin hout, fun _ => ⟨rfl, by simp⟩⟩

@[simp] theorem opRenderRead_key (s : State) : (opRenderRead s).key = s.key := by
  unfold opRenderRead
  split <;> rfl

/-- A latch that is set stays set under every operation but RESET and the KEY_CLEAR of its key. -/
theorem latch_stays_set {op : HostOp} {s t : State} {j : Fin 16} (h : perform op s = .next t) (hj : s.key[j] = true)
    (hreset : op ≠ .reset) (hclear : op ≠ .keyClear (j.val : Int)) : t.key[j] = true := by
  cases op with
  | reset => exact absurd rfl hreset
  | cycle =>
    obtain ⟨-, -, hkey, -⟩ := cycleNeverDoes s t h
    exact (hkey j).trans hj
  | keySet k =>
    cases h
    rw [opKeySet, getElem_key_writeLatch, hj, ite_self]
  | keyClear k =>
    cases h
    have other : (j.val : Int) ≠ k := by
      rintro rfl
      exact hclear rfl
    rw [opKeyClear, getElem_key_writeLatch, if_neg other, hj]
  | load bytes => cases h; rwa [opLoad_key]
  | tick => cases h; exact hj
  | renderRead => cases h; rwa [opRenderRead_key]

/-- Settles O59: both operations are the one write of a latch, with 1 and with 0. -/
theorem keyOperationsWriteLatch : Obligations.KeyOperationsWriteLatch := by
  refine ⟨?_, fun _ _ _ _ => latch_stays_set⟩
  rintro k s _ _ (⟨rfl, rfl⟩ | ⟨rfl, rfl⟩)
  · exact ⟨_, rfl, writeLatch_effect k true s⟩
  · exact ⟨_, rfl, writeLatch_effect k false s⟩

end Sys2Proof.Machine
end

section
/-! TICK counts both timers down and gives back the sound edge (`60_exceptions.md` R253). -/

namespace Sys2Proof.Machine

/-- The subtraction is the one of the natural numbers, which stops at 0. -/
theorem toNat_countDown (b : Byte) : (countDown b).toNat = b.toNat - 1 := by
  unfold countDown
  split <;> bv_omega

@[simp] theorem opTick_dt (s : State) : (opTick s).dt = countDown s.dt := rfl

@[simp] theorem opTick_st (s : State) : (opTick s).st = countDown s.st := rfl

theorem opTick_unchangedExcept (s : State) : UnchangedExcept [.dt, .st, .reply] s (opTick s) := by simp [opTick]

/-- A timer passes from above 0 to 0 in one tick exactly when it is 1 (`60_exceptions.md` R254). -/
theorem pos_and_countDown_eq_zero_iff (b : Byte) : 0 < b.toNat ∧ (countDown b).toNat = 0 ↔ b = 1 := by
  rw [toNat_countDown]
  bv_omega

theorem opTick_reply (s : State) : (opTick s).reply = .soundEdge (decide (s.st = 1)) := by
  have edge : (s.st != 0 && countDown s.st == 0) = decide (s.st = 1) := by
    rw [Bool.eq_iff_iff, decide_eq_true_iff, ← pos_and_countDown_eq_zero_iff]
    simp [← BitVec.toNat_inj, Nat.pos_iff_ne_zero]
  exact congrArg Reply.soundEdge edge

/-- Settles O55, from the countdown as a number; the edge of the statement is the tick at ST = 1. -/
theorem tickCountsDown : Obligations.TickCountsDown := by
  intro s
  have down (b : Byte) : (countDown b).toNat = if b.toNat > 0 then b.toNat - 1 else 0 := by
    rw [toNat_countDown]
    split <;> omega
  refine ⟨opTick s, rfl, down s.dt, down s.st, ?_, opTick_unchangedExcept s⟩
  simp only [opTick_reply, opTick_st, gt_iff_lt, pos_and_countDown_eq_zero_iff]

end Sys2Proof.Machine
end

section
/-! No operation of the host but TICK gives back a sound edge (`60_exceptions.md` R254). -/

namespace Sys2Proof.Machine

/-- All RENDER_READ can do. -/
theorem opRenderRead_cases (s : State) :
    (s.redraw = true ∧ opRenderRead s = { s.setReply (.frame s.fb) with redraw := false }) ∨
      (s.redraw = false ∧ opRenderRead s = s.setReply .noFrame) := by
  cases h : s.redraw with
  | true => exact .inl ⟨rfl, if_pos h⟩
  | false => exact .inr ⟨rfl, if_neg (by simp [h])⟩

theorem opLoad_reply_ne_soundEdge (bytes : List Byte) (s : State) (e : Bool) :
    (opLoad bytes s).reply ≠ .soundEdge e := by
  rcases opLoad_cases bytes s with ⟨-, h⟩ | ⟨-, h⟩ <;> simp [h]

theorem writeLatch_reply_ne_soundEdge (k : Int) (b : Bool) (s : State) (e : Bool) :
    (writeLatch k b s).reply ≠ .soundEdge e := by
  rcases writeLatch_cases k b s with ⟨-, h⟩ | ⟨-, h⟩ <;> simp [h]

theorem opRenderRead_reply_ne_soundEdge (s : State) (e : Bool) : (opRenderRead s).reply ≠ .soundEdge e := by
  rcases opRenderRead_cases s with ⟨-, h⟩ | ⟨-, h⟩ <;> simp [h]

/-- Only TICK answers with a sound edge, raised or not. -/
theorem eq_tick_of_reply_eq_soundEdge {op : HostOp} {s t : State} {e : Bool} (h : perform op s = .next t)
    (hr : t.reply = .soundEdge e) : op = .tick := by
  cases op with
  | tick => rfl
  | reset => cases h; simp at hr
  | load bytes => cases h; exact absurd hr (opLoad_reply_ne_soundEdge bytes s e)
  | cycle =>
    obtain ⟨-, -, -, -, hnothing, -⟩ := cycleNeverDoes s t h
    simp [hnothing] at hr
  | keySet k => cases h; exact absurd hr (writeLatch_reply_ne_soundEdge k true s e)
  | keyClear k => cases h; exact absurd hr (writeLatch_reply_ne_soundEdge k false s e)
  | renderRead => cases h; exact absurd hr (opRenderRead_reply_ne_soundEdge s e)

/-- Settles O56: an edge comes from TICK only, and TICK's is raised at ST = 1, which it leaves at 0. -/
theorem soundEdgeIsOneToZero : Obligations.SoundEdgeIsOneToZero := by
  intro s t op h
  constructor
  · intro hr
    obtain rfl := eq_tick_of_reply_eq_soundEdge h hr
    cases h
    have hst : s.st = 1 := by simpa [opTick_reply] using hr
    exact ⟨rfl, hst, by simp [hst, countDown]⟩
  · rintro ⟨rfl, hst, -⟩
    cases h
    simp [opTick_reply, hst]

end Sys2Proof.Machine
end

section
/-! Whatever the host does after a RESET, the next RESET gives the initial reset state (`70_reset_and_hazards.md` R281): an
operation, completed or faulted, takes itself off the schedule and keeps FONT, and a RESET reads nothing else. -/

namespace Sys2Proof.Machine

/-- Every instruction has a meaning: its execution completes or faults (`30_encoding.md` R84, R87). -/
theorem exec_ne_refused (i : Instr) (s : State) (r : Refusal) : exec i s ≠ .refused r := by
  intro h
  cases i with
  | ret _ => rcases execRet_cases s with ⟨-, e⟩ | ⟨_, _, -, e⟩ <;> cases e.symm.trans h
  | call nnn => rcases execCall_cases s nnn with ⟨-, e⟩ | ⟨-, e⟩ <;> cases e.symm.trans h
  | drw x y n => rcases execDrw_cases s x y n with ⟨-, -, e⟩ | ⟨-, _, -, e⟩ <;> cases e.symm.trans h
  | skp x => rcases execSkp_cases s x with ⟨_, e⟩ | ⟨-, e⟩ <;> cases e.symm.trans h
  | sknp x => rcases execSknp_cases s x with ⟨_, e⟩ | ⟨-, e⟩ <;> cases e.symm.trans h
  | ldVxK x => rcases execLdVxK_cases s x with ⟨-, e⟩ | ⟨_, _, -, -, e⟩ <;> cases e.symm.trans h
  | ldB x => rcases execLdB_cases s x with ⟨-, e⟩ | ⟨-, e⟩ <;> cases e.symm.trans h
  | ldMemVx x => rcases execLdMemVx_cases s x with ⟨-, e⟩ | ⟨-, e⟩ <;> cases e.symm.trans h
  | ldVxMem x => rcases execLdVxMem_cases s x with ⟨-, e⟩ | ⟨-, e⟩ <;> cases e.symm.trans h
  -- every other instruction completes from every state
  | _ => cases h

theorem cycle_ne_refused (s : State) (r : Refusal) : cycle s ≠ .refused r := by
  intro h
  rcases cycle_cases s with ⟨-, e⟩ | ⟨-, w, -, ⟨u, -, e⟩ | ⟨i, -, e⟩⟩
  · cases e.symm.trans h
  · cases e.symm.trans h
  · exact exec_ne_refused i s r (e.symm.trans h)

theorem perform_ne_refused (op : HostOp) (s : State) (r : Refusal) : perform op s ≠ .refused r := by
  intro h
  cases op with
  | cycle => exact cycle_ne_refused _ r h
  | _ => cases h

/-- No operation touches what the host still has to do or the parameter FONT (`00_scope.md` R6). -/
theorem perform_keeps_schedule_font {op : HostOp} {s t : State} (h : perform op s = .next t) :
    t.schedule = s.schedule ∧ t.font = s.font := by
  cases op with
  | cycle =>
    obtain ⟨-, -, -, -, -, frame⟩ := cycleNeverDoes s t h
    exact ⟨frame .schedule (by decide), frame .font (by decide)⟩
  | load bytes =>
    cases h
    rcases opLoad_cases bytes s with ⟨-, e⟩ | ⟨-, e⟩ <;> simp [e]
  | keySet k =>
    cases h
    rcases writeLatch_cases k true s with ⟨-, e⟩ | ⟨-, e⟩ <;> simp [opKeySet, e]
  | keyClear k =>
    cases h
    rcases writeLatch_cases k false s with ⟨-, e⟩ | ⟨-, e⟩ <;> simp [opKeyClear, e]
  | renderRead =>
    cases h
    rcases opRenderRead_cases s with ⟨-, e⟩ | ⟨-, e⟩ <;> simp [e]
  | reset => cases h; exact ⟨rfl, rfl⟩
  | tick => cases h; exact ⟨rfl, rfl⟩

/-- A scheduled operation, whether it completes or faults, leaves the rest of the schedule and FONT
(`60_exceptions.md` R252). -/
theorem afterStep_scheduled {s : State} {op : HostOp} {rest : List HostOp} (h : s.schedule = op :: rest) :
    (afterStep s).schedule = rest ∧ (afterStep s).font = s.font := by
  have hstep := step_scheduled s op rest h
  unfold afterStep
  cases hp : step s with
  | next t => exact perform_keeps_schedule_font (hstep.symm.trans hp)
  | fault f => simp [nextOp, h]
  | refused r => exact absurd (hstep.symm.trans hp) (perform_ne_refused op _ r)

/-- RESET is the initial reset of a machine with the same FONT, the random source and what the host still has to do left
out (`70_reset_and_hazards.md` R280). -/
theorem opReset_unchangedExcept_powerOn (s : State) :
    UnchangedExcept [.draws, .schedule, .hostRest] (State.powerOn s.font) (opReset s) :=
  fun p hp => by
    cases p with
    | draws | schedule | hostRest => exact absurd (by decide) hp
    | _ => simp [Same, State.getV]

/-- Operations in any number, and a RESET after them. -/
theorem afterSteps_of_schedule_ends_in_reset (ops : List HostOp) (s : State) (h : s.schedule = ops ++ [.reset]) :
    UnchangedExcept [.draws, .schedule, .hostRest] (State.powerOn s.font) (afterSteps (ops.length + 1) s) := by
  induction ops generalizing s with
  | nil =>
    have hstep : step s = .next (opReset { s with schedule := [] }) := step_scheduled s .reset [] h
    have hafter : afterSteps 1 s = opReset { s with schedule := [] } := by simp only [afterSteps, afterStep, hstep]
    rw [List.length_nil, hafter]
    exact opReset_unchangedExcept_powerOn { s with schedule := [] }
  | cons op ops ih =>
    obtain ⟨hsched, hfont⟩ := afterStep_scheduled h
    exact hfont ▸ ih (afterStep s) hsched

/-- Settles O4: the last RESET alone gives the reset state, for FONT is all it reads, and the first RESET and the
operations keep it. -/
theorem resetRoundTrip : Obligations.ResetRoundTrip := fun s ops =>
  (afterSteps_of_schedule_ends_in_reset (.reset :: ops) { s with schedule := .reset :: (ops ++ [.reset]) } rfl).mono
    (by decide)

end Sys2Proof.Machine
end

section
/-! Decoding reads the row off the word and the operands off the fields (`30_encoding.md` R71, R77), so encoder and decoder
are inverse and the 34 patterns are disjoint. -/

namespace Sys2Proof

/-- The instruction of the same row whose operands and ignored bits are the fields of `w` (`30_encoding.md` R71, R77). -/
def Instr.withFieldsOf (w : Word) : Instr → Instr
  | .cls _ => .cls (fieldX w)
  | .ret _ => .ret (fieldX w)
  | .jp _ => .jp (fieldNNN w)
  | .call _ => .call (fieldNNN w)
  | .seImm _ _ => .seImm (fieldX w) (fieldKK w)
  | .sneImm _ _ => .sneImm (fieldX w) (fieldKK w)
  | .seReg _ _ _ => .seReg (fieldX w) (fieldY w) (fieldN w)
  | .ldImm _ _ => .ldImm (fieldX w) (fieldKK w)
  | .addImm _ _ => .addImm (fieldX w) (fieldKK w)
  | .ldReg _ _ => .ldReg (fieldX w) (fieldY w)
  | .orReg _ _ => .orReg (fieldX w) (fieldY w)
  | .andReg _ _ => .andReg (fieldX w) (fieldY w)
  | .xorReg _ _ => .xorReg (fieldX w) (fieldY w)
  | .addReg _ _ => .addReg (fieldX w) (fieldY w)
  | .subReg _ _ => .subReg (fieldX w) (fieldY w)
  | .shr _ _ => .shr (fieldX w) (fieldY w)
  | .subnReg _ _ => .subnReg (fieldX w) (fieldY w)
  | .shl _ _ => .shl (fieldX w) (fieldY w)
  | .sneReg _ _ _ => .sneReg (fieldX w) (fieldY w) (fieldN w)
  | .ldI _ => .ldI (fieldNNN w)
  | .jpV0 _ => .jpV0 (fieldNNN w)
  | .rnd _ _ => .rnd (fieldX w) (fieldKK w)
  | .drw _ _ _ => .drw (fieldX w) (fieldY w) (fieldN w)
  | .skp _ => .skp (fieldX w)
  | .sknp _ => .sknp (fieldX w)
  | .ldVxDt _ => .ldVxDt (fieldX w)
  | .ldDtVx _ => .ldDtVx (fieldX w)
  | .ldStVx _ => .ldStVx (fieldX w)
  | .ldVxK _ => .ldVxK (fieldX w)
  | .addI _ => .addI (fieldX w)
  | .ldF _ => .ldF (fieldX w)
  | .ldB _ => .ldB (fieldX w)
  | .ldMemVx _ => .ldMemVx (fieldX w)
  | .ldVxMem _ => .ldVxMem (fieldX w)

@[simp] theorem opcodeRow_withFieldsOf (w : Word) (i : Instr) : opcodeRow (i.withFieldsOf w) = opcodeRow i := by
  cases i <;> rfl

/-- The fields of an instruction's own word are its operands (`30_encoding.md` R71). -/
theorem withFieldsOf_encode (i : Instr) : i.withFieldsOf (encode i) = i := by
  cases i with
  | jp _ | call _ | ldI _ | jpV0 _ => simp only [Instr.withFieldsOf, encode, fieldNNN_nnn]
  | cls _ | ret _ | seImm _ _ | sneImm _ _ | ldImm _ _ | addImm _ _ | rnd _ _ | skp _ | sknp _ | ldVxDt _ | ldDtVx _
  | ldStVx _ | ldVxK _ | addI _ | ldF _ | ldB _ | ldMemVx _ | ldVxMem _ =>
    simp only [Instr.withFieldsOf, encode, fieldX_xkk, fieldKK_xkk]
  | _ => simp only [Instr.withFieldsOf, encode, fieldX_xyn, fieldY_xyn, fieldN_xyn]

/-- A word that passes the mask and match of a row decodes to that row's instruction with the word's own fields
(`30_encoding.md` R77). -/
theorem decode_of_row {w : Word} (i : Instr) (h : w &&& (opcodeRow i).1 = (opcodeRow i).2) :
    decode w = .insn (i.withFieldsOf w) := by
  cases i with
  | ldReg _ _ | orReg _ _ | andReg _ _ | xorReg _ _ | addReg _ _ | subReg _ _ | shr _ _ | subnReg _ _ | shl _ _ =>
    obtain ⟨hc, hn⟩ := classLow_of_masked w _ h
    simp +decide [decode, decodeClass8, hc, hn, opcodeRow, Instr.withFieldsOf]
  | cls _ | ret _ | skp _ | sknp _ | ldVxDt _ | ldDtVx _ | ldStVx _ | ldVxK _ | addI _ | ldF _ | ldB _ | ldMemVx _
  | ldVxMem _ =>
    obtain ⟨hc, hk⟩ := classByte_of_masked w _ h
    simp +decide [decode, decodeClass0, decodeClassE, decodeClassF, hc, hk, opcodeRow, Instr.withFieldsOf]
  | _ =>
    have hc := class_of_masked w _ h
    simp +decide [decode, hc, opcodeRow, Instr.withFieldsOf]

/-- The word of an instruction passes the mask and match test of its row (`30_encoding.md` R77). -/
theorem encode_passes_row : ∀ i : Instr, encode i &&& (opcodeRow i).1 = (opcodeRow i).2
  | .cls g => Laws.Encoding.cls g
  | .ret g => Laws.Encoding.ret g
  | .jp a => Laws.Encoding.jp a
  | .call a => Laws.Encoding.call a
  | .seImm x b => Laws.Encoding.seImm x b
  | .sneImm x b => Laws.Encoding.sneImm x b
  | .seReg x y g => Laws.Encoding.seReg x y g
  | .ldImm x b => Laws.Encoding.ldImm x b
  | .addImm x b => Laws.Encoding.addImm x b
  | .ldReg x y => Laws.Encoding.ldReg x y
  | .orReg x y => Laws.Encoding.orReg x y
  | .andReg x y => Laws.Encoding.andReg x y
  | .xorReg x y => Laws.Encoding.xorReg x y
  | .addReg x y => Laws.Encoding.addReg x y
  | .subReg x y => Laws.Encoding.subReg x y
  | .shr x g => Laws.Encoding.shr x g
  | .subnReg x y => Laws.Encoding.subnReg x y
  | .shl x g => Laws.Encoding.shl x g
  | .sneReg x y g => Laws.Encoding.sneReg x y g
  | .ldI a => Laws.Encoding.ldI a
  | .jpV0 a => Laws.Encoding.jpV0 a
  | .rnd x b => Laws.Encoding.rnd x b
  | .drw x y n => Laws.Encoding.drw x y n
  | .skp x => Laws.Encoding.skp x
  | .sknp x => Laws.Encoding.sknp x
  | .ldVxDt x => Laws.Encoding.ldVxDt x
  | .ldDtVx x => Laws.Encoding.ldDtVx x
  | .ldStVx x => Laws.Encoding.ldStVx x
  | .ldVxK x => Laws.Encoding.ldVxK x
  | .addI x => Laws.Encoding.addI x
  | .ldF x => Laws.Encoding.ldF x
  | .ldB x => Laws.Encoding.ldB x
  | .ldMemVx x => Laws.Encoding.ldMemVx x
  | .ldVxMem x => Laws.Encoding.ldVxMem x

/-- Settles O7: an instruction's word passes its row, so it decodes to that row with the word's fields, which are the
instruction's operands. -/
theorem decodeOfEncodeIsIdentity : Obligations.DecodeOfEncodeIsIdentity := fun i => by
  rw [decode_of_row i (encode_passes_row i), withFieldsOf_encode]

/-! A word of a class with a second key is put together from the class, the second key and the other fields. -/

theorem encode_of_decodeClass0 {w : Word} {i : Instr} (hc : fieldClass w = 0x0#4) (h : decodeClass0 w = .insn i) :
    encode i = w := by
  have hw := word_of_xkk w
  rcases decodeClass0_cases w with ⟨hk, e⟩ | ⟨hk, e⟩ | ⟨-, -, e⟩ <;> cases e.symm.trans h
  all_goals rwa [hc, hk] at hw

theorem encode_of_decodeClass8 {w : Word} {i : Instr} (hc : fieldClass w = 0x8#4) (h : decodeClass8 w = .insn i) :
    encode i = w := by
  have hw := word_of_xyn w
  rcases decodeClass8_cases w with ⟨hn, e⟩ | ⟨hn, e⟩ | ⟨hn, e⟩ | ⟨hn, e⟩ | ⟨hn, e⟩ | ⟨hn, e⟩ | ⟨hn, e⟩ | ⟨hn, e⟩ |
    ⟨hn, e⟩ | ⟨-, -, -, -, -, -, -, -, -, e⟩ <;> cases e.symm.trans h
  all_goals rwa [hc, hn] at hw

theorem encode_of_decodeClassE {w : Word} {i : Instr} (hc : fieldClass w = 0xE#4) (h : decodeClassE w = .insn i) :
    encode i = w := by
  have hw := word_of_xkk w
  rcases decodeClassE_cases w with ⟨hk, e⟩ | ⟨hk, e⟩ | ⟨-, -, e⟩ <;> cases e.symm.trans h
  all_goals rwa [hc, hk] at hw

theorem encode_of_decodeClassF {w : Word} {i : Instr} (hc : fieldClass w = 0xF#4) (h : decodeClassF w = .insn i) :
    encode i = w := by
  have hw := word_of_xkk w
  rcases decodeClassF_cases w with ⟨hk, e⟩ | ⟨hk, e⟩ | ⟨hk, e⟩ | ⟨hk, e⟩ | ⟨hk, e⟩ | ⟨hk, e⟩ | ⟨hk, e⟩ | ⟨hk, e⟩ |
    ⟨hk, e⟩ | ⟨-, -, -, -, -, -, -, -, -, e⟩ <;> cases e.symm.trans h
  all_goals rwa [hc, hk] at hw

/-- Settles O8, class by class: the word is its class, its second key if the class has one, and its other fields. -/
theorem encodeOfDecodeIsIdentity : Obligations.EncodeOfDecodeIsIdentity := by
  intro w i h
  have nnn := word_of_nnn w
  have xkk := word_of_xkk w
  have xyn := word_of_xyn w
  rcases decode_cases w with ⟨hc, e⟩ | ⟨hc, e⟩ | ⟨hc, e⟩ | ⟨hc, e⟩ | ⟨hc, e⟩ | ⟨hc, e⟩ | ⟨hc, e⟩ | ⟨hc, e⟩ | ⟨hc, e⟩ |
    ⟨hc, e⟩ | ⟨hc, e⟩ | ⟨hc, e⟩ | ⟨hc, e⟩ | ⟨hc, e⟩ | ⟨hc, e⟩ | ⟨hc, e⟩ <;> rw [hc] at nnn xkk xyn <;> rw [e] at h
  · exact encode_of_decodeClass0 hc h
  · cases h; exact nnn
  · cases h; exact nnn
  · cases h; exact xkk
  · cases h; exact xkk
  · cases h; exact xyn
  · cases h; exact xkk
  · cases h; exact xkk
  · exact encode_of_decodeClass8 hc h
  · cases h; exact xyn
  · cases h; exact nnn
  · cases h; exact nnn
  · cases h; exact xkk
  · cases h; exact xyn
  · exact encode_of_decodeClassE hc h
  · exact encode_of_decodeClassF hc h

/-- A word that decodes to an instruction passes the mask and match of its row (`30_encoding.md` R77). -/
theorem passes_row_of_decode {w : Word} {i : Instr} (h : decode w = .insn i) :
    w &&& (opcodeRow i).1 = (opcodeRow i).2 :=
  encodeOfDecodeIsIdentity w i h ▸ encode_passes_row i

/-- Settles O10: a word that passes a row decodes to that row, and a word that decodes to a row passes it. -/
theorem wordDecodesByItsRow : Obligations.WordDecodesByItsRow := by
  intro w i
  constructor
  · intro h
    exact ⟨_, decode_of_row i h, opcodeRow_withFieldsOf w i⟩
  · rintro ⟨j, hj, hrow⟩
    rw [← hrow]
    exact passes_row_of_decode hj

/-! The unknown words of each class with a second key (`30_encoding.md` R84), as numbers. -/

theorem decodeClass0_eq_unknown_iff (w : Word) :
    decodeClass0 w = .unknown w ↔ w.toNat % 256 ∉ [0xE0, 0xEE] := by
  rw [← toNat_fieldKK]
  rcases decodeClass0_cases w with ⟨hk, e⟩ | ⟨hk, e⟩ | ⟨h1, h2, e⟩ <;> rw [e]
  · simp [hk]
  · simp [hk]
  · simp only [List.mem_cons, List.not_mem_nil, or_false, true_iff]
    bv_omega

theorem decodeClass8_eq_unknown_iff (w : Word) :
    decodeClass8 w = .unknown w ↔ w.toNat % 16 ∈ [0x8, 0x9, 0xA, 0xB, 0xC, 0xD, 0xF] := by
  rw [← toNat_fieldN]
  rcases decodeClass8_cases w with ⟨hn, e⟩ | ⟨hn, e⟩ | ⟨hn, e⟩ | ⟨hn, e⟩ | ⟨hn, e⟩ | ⟨hn, e⟩ | ⟨hn, e⟩ | ⟨hn, e⟩ |
    ⟨hn, e⟩ | ⟨h0, h1, h2, h3, h4, h5, h6, h7, hE, e⟩ <;> rw [e]
  case inr.inr.inr.inr.inr.inr.inr.inr.inr =>
    simp only [List.mem_cons, List.not_mem_nil, or_false, true_iff]
    bv_omega
  all_goals simp [hn]

theorem decodeClassE_eq_unknown_iff (w : Word) :
    decodeClassE w = .unknown w ↔ w.toNat % 256 ∉ [0x9E, 0xA1] := by
  rw [← toNat_fieldKK]
  rcases decodeClassE_cases w with ⟨hk, e⟩ | ⟨hk, e⟩ | ⟨h1, h2, e⟩ <;> rw [e]
  · simp [hk]
  · simp [hk]
  · simp only [List.mem_cons, List.not_mem_nil, or_false, true_iff]
    bv_omega

theorem decodeClassF_eq_unknown_iff (w : Word) :
    decodeClassF w = .unknown w ↔
      w.toNat % 256 ∉ [0x07, 0x0A, 0x15, 0x18, 0x1E, 0x29, 0x33, 0x55, 0x65] := by
  rw [← toNat_fieldKK]
  rcases decodeClassF_cases w with ⟨hk, e⟩ | ⟨hk, e⟩ | ⟨hk, e⟩ | ⟨hk, e⟩ | ⟨hk, e⟩ | ⟨hk, e⟩ | ⟨hk, e⟩ | ⟨hk, e⟩ |
    ⟨hk, e⟩ | ⟨h0, h1, h2, h3, h4, h5, h6, h7, h8, e⟩ <;> rw [e]
  case inr.inr.inr.inr.inr.inr.inr.inr.inr =>
    simp only [List.mem_cons, List.not_mem_nil, or_false, true_iff]
    bv_omega
  all_goals simp [hk]

/-- Settles O11: the class of the word selects one clause; the classes without a second key have no unknown word. -/
theorem unknownWordsAreThese : Obligations.UnknownWordsAreThese := by
  intro w
  have class_eq (c : Nibble) (h : fieldClass w = c) : w.toNat / 4096 = c.toNat := by rw [← toNat_fieldClass, h]
  rcases decode_cases w with ⟨hc, e⟩ | ⟨hc, e⟩ | ⟨hc, e⟩ | ⟨hc, e⟩ | ⟨hc, e⟩ | ⟨hc, e⟩ | ⟨hc, e⟩ | ⟨hc, e⟩ | ⟨hc, e⟩ |
    ⟨hc, e⟩ | ⟨hc, e⟩ | ⟨hc, e⟩ | ⟨hc, e⟩ | ⟨hc, e⟩ | ⟨hc, e⟩ | ⟨hc, e⟩ <;> rw [e, class_eq _ hc]
  all_goals simp [decodeClass0_eq_unknown_iff, decodeClass8_eq_unknown_iff, decodeClassE_eq_unknown_iff,
    decodeClassF_eq_unknown_iff]

/-- Settles O12, by running the decoder on the eight words. -/
theorem sampleWordsDecode : Obligations.SampleWordsDecode := by
  unfold Obligations.SampleWordsDecode
  decide

end Sys2Proof
end

section
/-! The `pc` after each instruction that completes (`10_state.md` R28). -/

namespace Sys2Proof.Machine

variable {i : Instr} {s t : State}

/-- The pre-increment and a skip on top of it (`40_cycle.md` R102, `41_flow.md` R123). -/
theorem State.advance_skipIf_pc (s : State) (c : Bool) :
    (s.advance.skipIf c).pc = if c then s.pc + 4 else s.pc + 2 := by
  cases c with
  | false => rfl
  | true => simp [BitVec.add_assoc]

theorem State.advance_skipIf_pc_or (s : State) (c : Bool) :
    (s.advance.skipIf c).pc = s.pc + 2 ∨ (s.advance.skipIf c).pc = s.pc + 4 := by
  rw [State.advance_skipIf_pc]
  cases c with
  | false => exact .inl rfl
  | true => exact .inr rfl

/-- An instruction that does not set `pc` goes on to the next one (`10_state.md` R28). -/
theorem exec_pc_of_setsPc_eq_false (h : exec i s = .next t) (hi : setsPc i = false) : t.pc = s.pc + 2 := by
  cases i with
  | ret _ | jp _ | call _ | seImm _ _ | sneImm _ _ | seReg _ _ _ | sneReg _ _ _ | jpV0 _ | skp _ | sknp _ | ldVxK _ =>
    cases hi
  | drw x y n => rcases execDrw_cases s x y n with ⟨-, -, e⟩ | ⟨-, d, -, e⟩ <;> cases e.symm.trans h; rfl
  | ldB x => rcases execLdB_cases s x with ⟨-, e⟩ | ⟨-, e⟩ <;> cases e.symm.trans h; rfl
  | ldMemVx x => rcases execLdMemVx_cases s x with ⟨-, e⟩ | ⟨-, e⟩ <;> cases e.symm.trans h; rfl
  | ldVxMem x => rcases execLdVxMem_cases s x with ⟨-, e⟩ | ⟨-, e⟩ <;> cases e.symm.trans h; rfl
  | _ => cases h; rfl

/-- All a `RET` that completes can do (`41_flow.md` R120). -/
theorem execRet_eq_next (h : execRet s = .next t) :
    ∃ w rest, s.stack = w :: rest ∧ t = { s with pc := w, stack := rest } := by
  rcases execRet_cases s with ⟨-, e⟩ | ⟨w, rest, hs, e⟩ <;> cases e.symm.trans h
  exact ⟨w, rest, hs, rfl⟩

/-- All a `CALL` that completes can do (`41_flow.md` R122). -/
theorem execCall_eq_next {nnn : Addr} (h : execCall nnn s = .next t) :
    s.stack.length < 16 ∧ t = { s with pc := jumpTarget nnn, stack := (s.pc + 2) :: s.stack } := by
  rcases execCall_cases s nnn with ⟨-, e⟩ | ⟨hs, e⟩ <;> cases e.symm.trans h
  exact ⟨hs, rfl⟩

/-- The `pc` after a skip that completes (`10_state.md` R28). -/
theorem execSkp_pc {x : Nibble} (h : execSkp x s = .next t) : t.pc = s.pc + 2 ∨ t.pc = s.pc + 4 := by
  rcases execSkp_cases s x with ⟨_, e⟩ | ⟨-, e⟩ <;> cases e.symm.trans h
  exact s.advance_skipIf_pc_or _

theorem execSknp_pc {x : Nibble} (h : execSknp x s = .next t) : t.pc = s.pc + 2 ∨ t.pc = s.pc + 4 := by
  rcases execSknp_cases s x with ⟨_, e⟩ | ⟨-, e⟩ <;> cases e.symm.trans h
  exact s.advance_skipIf_pc_or _

/-- The key wait holds the state as it is or goes on with a key latched (`45_keypad_timers.md` R204). -/
theorem execLdVxK_pc {x : Nibble} (h : execLdVxK x s = .next t) :
    t.pc = s.pc ∧ t = s ∨ t.pc = s.pc + 2 ∧ ∃ k : Fin 16, s.key[k] = true := by
  rcases execLdVxK_cases s x with ⟨-, e⟩ | ⟨k, _, hk, rfl | rfl, e⟩ <;> cases e.symm.trans h
  · exact .inl ⟨rfl, rfl⟩
  · exact .inr ⟨rfl, k, hk⟩
  · exact .inr ⟨rfl, k, hk⟩

/-- Settles O54, clause by clause: each names the instructions it speaks of. -/
theorem pcAfterInstruction : Obligations.PcAfterInstruction := by
  intro i s t h
  refine ⟨exec_pc_of_setsPc_eq_false h, ?_, ?_, ?_, ?_, ?_⟩
  · rintro nnn (rfl | rfl)
    · cases h
      exact toNat_jumpTarget nnn
    · obtain ⟨-, rfl⟩ := execCall_eq_next h
      exact toNat_jumpTarget nnn
  · rintro nnn rfl
    cases h
    exact toNat_offsetTarget nnn (s.getV 0)
  · rintro g rfl
    obtain ⟨w, rest, hs, rfl⟩ := execRet_eq_next h
    rw [hs]
    rfl
  · rintro x rfl
    exact execLdVxK_pc h
  · rintro (⟨x, kk, rfl | rfl⟩ | ⟨x, y, g, rfl | rfl⟩ | ⟨x, rfl | rfl⟩)
    · cases h; exact s.advance_skipIf_pc_or _
    · cases h; exact s.advance_skipIf_pc_or _
    · cases h; exact s.advance_skipIf_pc_or _
    · cases h; exact s.advance_skipIf_pc_or _
    · exact execSkp_pc h
    · exact execSknp_pc h

end Sys2Proof.Machine
end

section
/-! The machine invariant: memory in canonical form, the stack bounded with entries an instruction's address plus 2, `pc` at
most 0x10FE (`10_state.md` R29, R31). -/

namespace Sys2Proof.Machine

variable {i : Instr} {s t : State}

/-- All an instruction can do to memory: nothing, or bytes stored from I on (`43_index_memory.md` R174). -/
theorem exec_mem (h : exec i s = .next t) : t.mem = s.mem ∨ ∃ bytes, t.mem = Memory.writeBytes s.mem s.i.toNat bytes := by
  cases i with
  | ldB x =>
    rcases execLdB_cases s x with ⟨-, e⟩ | ⟨-, e⟩ <;> cases e.symm.trans h
    exact .inr ⟨_, rfl⟩
  | ldMemVx x =>
    rcases execLdMemVx_cases s x with ⟨-, e⟩ | ⟨-, e⟩ <;> cases e.symm.trans h
    exact .inr ⟨_, rfl⟩
  | ret _ => obtain ⟨_, _, -, rfl⟩ := execRet_eq_next h; exact .inl rfl
  | call nnn => obtain ⟨-, rfl⟩ := execCall_eq_next h; exact .inl rfl
  | drw x y n => rcases execDrw_cases s x y n with ⟨-, -, e⟩ | ⟨-, d, -, e⟩ <;> cases e.symm.trans h; exact .inl rfl
  | skp x => rcases execSkp_cases s x with ⟨_, e⟩ | ⟨-, e⟩ <;> cases e.symm.trans h; simp
  | sknp x => rcases execSknp_cases s x with ⟨_, e⟩ | ⟨-, e⟩ <;> cases e.symm.trans h; simp
  | ldVxK x => rcases execLdVxK_cases s x with ⟨-, e⟩ | ⟨_, _, -, rfl | rfl, e⟩ <;> cases e.symm.trans h <;> exact .inl rfl
  | ldVxMem x => rcases execLdVxMem_cases s x with ⟨-, e⟩ | ⟨-, e⟩ <;> cases e.symm.trans h; exact .inl rfl
  -- every other instruction has one outcome, with memory as it was
  | _ => cases h; simp

theorem stack_mem_mayWrite : .stack ∈ mayWrite i ↔ (∃ g, i = .ret g) ∨ ∃ nnn, i = .call nnn := by
  cases i <;> simp [mayWrite]

/-- All an instruction can do to the stack: nothing, a pop, or a push of the next address (`10_state.md` R30). -/
theorem exec_stack (h : exec i s = .next t) :
    t.stack = s.stack ∨ (∃ w, s.stack = w :: t.stack) ∨ (s.stack.length < 16 ∧ t.stack = (s.pc + 2) :: s.stack) := by
  by_cases hp : .stack ∈ mayWrite i
  · rcases stack_mem_mayWrite.mp hp with ⟨g, rfl⟩ | ⟨nnn, rfl⟩
    · obtain ⟨w, rest, hs, rfl⟩ := execRet_eq_next h
      exact .inr (.inl ⟨w, hs⟩)
    · obtain ⟨hlen, rfl⟩ := execCall_eq_next h
      exact .inr (.inr ⟨hlen, rfl⟩)
  · exact .inl (exec_unchangedExcept h .stack (by simpa using hp))

/-- Where an instruction fetched inside memory leaves `pc`: near it, at an address operand with at most a byte added, or at
a stack entry (`10_state.md` R29). -/
theorem exec_pc_range (h : exec i s = .next t) :
    t.pc = s.pc ∨ t.pc = s.pc + 2 ∨ t.pc = s.pc + 4 ∨ t.pc.toNat ≤ 0xFFF + 0xFF ∨ t.pc ∈ s.stack := by
  obtain ⟨next, jump, offset, ret, wait, skip⟩ := pcAfterInstruction i s t h
  cases i with
  | jp nnn =>
    have := jump nnn (.inl rfl)
    have := nnn.isLt
    omega
  | call nnn =>
    have := jump nnn (.inr rfl)
    have := nnn.isLt
    omega
  | jpV0 nnn =>
    have := offset nnn rfl
    have := nnn.isLt
    have := (s.getV 0).isLt
    omega
  | ret g => exact .inr (.inr (.inr (.inr (List.mem_of_head? (ret g rfl)))))
  | ldVxK x =>
    rcases wait x rfl with ⟨hpc, -⟩ | ⟨hpc, -⟩
    · exact .inl hpc
    · exact .inr (.inl hpc)
  | seImm _ _ | sneImm _ _ | seReg _ _ _ | sneReg _ _ _ | skp _ | sknp _ =>
    rcases skip (by simp) with hpc | hpc
    · exact .inr (.inl hpc)
    · exact .inr (.inr (.inl hpc))
  | _ => exact .inr (.inl (next rfl))

/-- An instruction fetched inside memory keeps the invariant. -/
theorem MachineInv.exec (hs : MachineInv s) (hpc : s.pc.toNat ≤ 0xFFE) (h : exec i s = .next t) : MachineInv t where
  memory := by
    rcases exec_mem h with e | ⟨bytes, e⟩ <;> rw [e]
    · exact hs.memory
    · exact Memory.wf_writeBytes _ hs.memory _ _
  depth := by
    rcases exec_stack h with e | ⟨w, e⟩ | ⟨hlen, e⟩
    · exact e ▸ hs.depth
    · have : t.stack.length ≤ s.stack.length := by simp [e]
      exact this.trans hs.depth
    · exact e ▸ hlen
  entries := by
    have pushed : 2 ≤ (s.pc + 2).toNat ∧ (s.pc + 2).toNat ≤ 0x1000 := by bv_omega
    intro w hw
    rcases exec_stack h with e | ⟨u, e⟩ | ⟨-, e⟩
    · exact hs.entries w (e ▸ hw)
    · exact hs.entries w (e ▸ List.mem_cons_of_mem u hw)
    · rcases List.mem_cons.mp (e ▸ hw) with rfl | hw
      · exact pushed
      · exact hs.entries w hw
  pcRange := by
    rcases exec_pc_range h with e | e | e | hle | hmem
    · rw [e]; exact hs.pcRange
    · rw [e]; bv_omega
    · rw [e]; bv_omega
    · exact hle
    · exact (hs.entries _ hmem).2.trans (by decide)

/-- The invariant speaks of memory, stack and `pc` only. -/
theorem MachineInv.congr (hs : MachineInv s) (hmem : Memory.wf t.mem) (hstack : t.stack = s.stack) (hpc : t.pc = s.pc) :
    MachineInv t :=
  ⟨hmem, hstack ▸ hs.depth, hstack ▸ hs.entries, hpc ▸ hs.pcRange⟩

theorem machineInv_powerOn (font : Font) : MachineInv (State.powerOn font) :=
  ⟨Memory.wf_powerOn font, by simp, by simp, by simp⟩

/-- Settles O5: `State.reset` is the state a session starts with under the default font. -/
theorem invariantHoldsAtReset : Obligations.InvariantHoldsAtReset :=
  ⟨State.powerOn_defaultFont ▸ machineInv_powerOn defaultFont, machineInv_powerOn⟩

theorem MachineInv.cycle (hs : MachineInv s) (h : cycle s = .next t) : MachineInv t := by
  rcases cycle_cases s with ⟨-, e⟩ | ⟨hpc, w, -, ⟨u, -, e⟩ | ⟨i, -, e⟩⟩
  · cases e.symm.trans h
  · cases e.symm.trans h
  · exact hs.exec hpc (e.symm.trans h)

/-- Every operation of the host keeps the invariant. -/
theorem MachineInv.perform {op : HostOp} (hs : MachineInv s) (h : perform op s = .next t) : MachineInv t := by
  cases op with
  | cycle => exact (hs.congr hs.memory rfl rfl : MachineInv (s.setReply .nothing)).cycle h
  | reset =>
    cases h
    exact (machineInv_powerOn s.font).congr (Memory.wf_powerOn s.font) rfl rfl
  | load bytes =>
    cases h
    rcases opLoad_cases bytes s with ⟨-, e⟩ | ⟨-, e⟩ <;> rw [e]
    · exact hs.congr hs.memory rfl rfl
    · exact hs.congr (Memory.wf_writeBytes _ hs.memory _ _) rfl rfl
  | tick => cases h; exact hs.congr hs.memory rfl rfl
  | keySet k =>
    cases h
    rcases writeLatch_cases k true s with ⟨-, e⟩ | ⟨-, e⟩ <;> rw [opKeySet, e] <;> exact hs.congr hs.memory rfl rfl
  | keyClear k =>
    cases h
    rcases writeLatch_cases k false s with ⟨-, e⟩ | ⟨-, e⟩ <;> rw [opKeyClear, e] <;> exact hs.congr hs.memory rfl rfl
  | renderRead =>
    cases h
    rcases opRenderRead_cases s with ⟨-, e⟩ | ⟨-, e⟩ <;> rw [e] <;> exact hs.congr hs.memory rfl rfl

/-- Settles O6: taking the next operation off what the host has to do touches nothing of the invariant, and every
operation keeps it. -/
theorem stepKeepsInvariant : Obligations.StepKeepsInvariant := fun s _ hs h =>
  (hs.congr (by simpa using hs.memory) (nextOp_stack s) (nextOp_pc s) : MachineInv (nextOp s).2).perform h

/-- Settles O3: no operation touches FONT, nor does the choice of the next one. -/
theorem stepKeepsFont : Obligations.StepKeepsFont := fun s _ h =>
  have ⟨_, hfont⟩ := perform_keeps_schedule_font (op := (nextOp s).1) h
  hfont.trans (nextOp_font s)

end Sys2Proof.Machine
end

section
/-! The registers an instruction writes: its destinations, and VF as a flag (`10_state.md` R22, R24). -/

namespace Sys2Proof.Machine

variable {i : Instr} {s t : State} {r : Nibble}

/-- The registers after `LD Vx, [I]`: V0..Vx hold the bytes from I on (`43_index_memory.md` R176). -/
theorem getV_loadedRegisters (s : State) (x r : Nibble) :
    State.getV { s.advance with v := loadRegisters s.v 0 (Memory.readBytes s.mem s.i.toNat (x.toNat + 1)) } r =
      if r ≤ x then Memory.read s.mem (s.i.toNat + r.toNat) else s.getV r := by
  unfold State.getV
  rw [getElem_loadRegisters _ _ _ _ r.isLt, Memory.length_readBytes, Nat.sub_zero, List.getD_eq_getElem?_getD]
  by_cases hr : r ≤ x
  · have hlt : r.toNat < x.toNat + 1 := Nat.lt_succ_of_le hr
    rw [if_pos (by omega), if_pos hr, Memory.getElem_readBytes _ _ _ _ hlt, Option.getD_some]
  · have hge : ¬ r.toNat < x.toNat + 1 := fun hlt => hr (Nat.le_of_lt_succ hlt)
    rw [if_neg (by omega), if_neg hr]

/-- A register that is neither a destination of the instruction nor its flag stays as it was. -/
theorem exec_getV_of_not_written (h : exec i s = .next t) (hd : ¬ hasDestination i r)
    (hf : ¬ (writesFlag i = true ∧ r = vf)) : t.getV r = s.getV r := by
  cases i with
  | ldImm _ _ | addImm _ _ | ldReg _ _ | orReg _ _ | andReg _ _ | xorReg _ _ | rnd _ _ | ldVxDt _ =>
    cases h
    exact State.getV_setV_other _ _ _ _ hd
  | addReg _ _ | subReg _ _ | shr _ _ | subnReg _ _ | shl _ _ =>
    cases h
    have hvf : r ≠ vf := fun e => hf ⟨rfl, e⟩
    exact (State.getV_setV_other _ _ _ _ hvf).trans (State.getV_setV_other _ _ _ _ hd)
  | addI _ =>
    cases h
    exact State.getV_setV_other _ _ _ _ fun e => hf ⟨rfl, e⟩
  | drw x y n =>
    rcases execDrw_cases s x y n with ⟨-, -, e⟩ | ⟨-, d, -, e⟩ <;> cases e.symm.trans h
    exact State.getV_setV_other _ _ _ _ fun e => hf ⟨rfl, e⟩
  | ldVxK x =>
    rcases execLdVxK_cases s x with ⟨-, e⟩ | ⟨_, _, -, rfl | rfl, e⟩ <;> cases e.symm.trans h
    · rfl
    · exact State.getV_setV_other _ _ _ _ hd
    · exact State.getV_setV_other _ _ _ _ hd
  | ldVxMem x =>
    rcases execLdVxMem_cases s x with ⟨-, e⟩ | ⟨-, e⟩ <;> cases e.symm.trans h
    exact (getV_loadedRegisters s x r).trans (if_neg hd)
  | _ => exact exec_unchangedExcept h .regs (by simp [mayWrite]) r

theorem flagByte_eq_zero_or_one (f : Bool) : flagByte f = 0 ∨ flagByte f = 1 := by cases f <;> simp [flagByte]

theorem State.getV_setFlag_vf (s : State) (f : Bool) : (s.setFlag f).getV vf = flagByte f :=
  s.getV_setV_same vf (flagByte f)

/-- A flag-writing instruction leaves a flag in VF, also where VF is its destination (`10_state.md` R22, D12, log 12). -/
theorem exec_flag (h : exec i s = .next t) (hi : writesFlag i = true) : ∃ f, t.getV vf = flagByte f := by
  cases i with
  | addReg _ _ | subReg _ _ | shr _ _ | subnReg _ _ | shl _ _ | addI _ =>
    cases h
    exact ⟨_, State.getV_setFlag_vf _ _⟩
  | drw x y n =>
    rcases execDrw_cases s x y n with ⟨-, -, e⟩ | ⟨-, d, -, e⟩ <;> cases e.symm.trans h
    exact ⟨_, State.getV_setFlag_vf _ _⟩
  | _ => cases hi

/-- Settles O51, by the effect of each instruction on a register it does not name. -/
theorem registersWrittenAreDestinations : Obligations.RegistersWrittenAreDestinations := fun _ _ _ _ =>
  exec_getV_of_not_written

/-- Settles O50: the flag is the last write of the seven instructions, and VF is a register like another to the rest. -/
theorem onlySevenInstructionsWriteFlag : Obligations.OnlySevenInstructionsWriteFlag := by
  intro i s t h
  constructor
  · intro hi
    obtain ⟨f, hf⟩ := exec_flag h hi
    rw [hf]
    exact flagByte_eq_zero_or_one f
  · intro hi hd
    exact exec_getV_of_not_written h hd (by simp [hi])

/-- Settles O52, the frame of each instruction. -/
theorem instructionsWriteOnlyTheirParts : Obligations.InstructionsWriteOnlyTheirParts := fun _ _ _ =>
  exec_unchangedExcept

end Sys2Proof.Machine
end

section
/-! The faults of a cycle: those executing an instruction can raise, the two of fetch and dispatch, and that a fault comes
again (`60_exceptions.md` R241 to R252). -/

namespace Sys2Proof.Machine

/-- A last byte inside memory is not beyond it (`43_index_memory.md` R174). -/
theorem not_beyond_of_le_memSize {a k : Nat} (h : a + (k + 1) ≤ memSize) : ¬ 0xFFF < a + k := by
  unfold memSize at h
  omega

/-- Settles O18: each instruction that can fault by the one condition it checks, and every other completes and touches no
byte at I. -/
theorem executionFaultsAreThese : Obligations.ExecutionFaultsAreThese := by
  intro i s f
  cases i with
  | ret g =>
    show execRet s = .fault f ↔ _
    rcases execRet_cases s with ⟨hs, e⟩ | ⟨w, rest, hs, e⟩ <;> simp [e, hs, dataCount, eq_comm]
  | call nnn =>
    show execCall nnn s = .fault f ↔ _
    rcases execCall_cases s nnn with ⟨hs, e⟩ | ⟨hs, e⟩ <;> simp [e, hs, dataCount, eq_comm]
  | ldB x =>
    show execLdB x s = .fault f ↔ _
    rcases execLdB_cases s x with ⟨hs, e⟩ | ⟨hs, e⟩
    · simp [e, hs, dataCount, dataAddress, eq_comm]
    · simp [e, dataCount, dataAddress, not_beyond_of_le_memSize hs]
  | ldMemVx x =>
    show execLdMemVx x s = .fault f ↔ _
    rcases execLdMemVx_cases s x with ⟨hs, e⟩ | ⟨hs, e⟩
    · simp [e, hs, dataCount, dataAddress, eq_comm]
    · simp [e, dataCount, dataAddress, not_beyond_of_le_memSize hs]
  | ldVxMem x =>
    show execLdVxMem x s = .fault f ↔ _
    rcases execLdVxMem_cases s x with ⟨hs, e⟩ | ⟨hs, e⟩
    · simp [e, hs, dataCount, dataAddress, eq_comm]
    · simp [e, dataCount, dataAddress, not_beyond_of_le_memSize hs]
  | drw x y n =>
    show execDrw x y n s = .fault f ↔ _
    rcases execDrw_cases s x y n with ⟨h1, hs, e⟩ | ⟨hs, d, -, e⟩
    · simp [e, h1, hs, dataCount, dataAddress, eq_comm]
    · have inside : ¬ (1 ≤ n.toNat ∧ 0xFFF < s.i.toNat + n.toNat - 1) := by unfold memSize at hs; omega
      simpa [e, dataCount, dataAddress] using fun h1 h2 => absurd ⟨h1, h2⟩ inside
  | skp x =>
    show execSkp x s = .fault f ↔ _
    rcases execSkp_cases s x with ⟨hs, e⟩ | ⟨hs, e⟩
    · simp [e, dataCount, Nat.not_lt.mpr (Nat.le_of_lt_succ hs)]
    · simp [e, hs, dataCount, eq_comm]
  | sknp x =>
    show execSknp x s = .fault f ↔ _
    rcases execSknp_cases s x with ⟨hs, e⟩ | ⟨hs, e⟩
    · simp [e, dataCount, Nat.not_lt.mpr (Nat.le_of_lt_succ hs)]
    · simp [e, hs, dataCount, eq_comm]
  | ldVxK x =>
    show execLdVxK x s = .fault f ↔ _
    rcases execLdVxK_cases s x with ⟨-, e⟩ | ⟨_, _, -, -, e⟩ <;> simp [e, dataCount]
  | _ => exact ⟨nofun, by simp [dataCount]⟩

/-- Settles O19: a step is an operation, and none is refused. -/
theorem stepIsNeverRefused : Obligations.StepIsNeverRefused := fun s => perform_ne_refused (nextOp s).1 (nextOp s).2

/-- A word unknown to the decoder ends the cycle (`60_exceptions.md` R242). -/
theorem cycle_eq_unknownInstruction {s : State} {w u : Word} (hw : fetchWord s = some w) (hd : decode w = .unknown u) :
    cycle s = .fault (.unknownInstruction u s.pc) := by
  simp only [cycle, hw, hd, raise]

/-- Settles O15: the state the step works on is `s` with the CYCLE taken off and the reply cleared, which has the same
`pc` and memory; the fault leaves it. -/
theorem stepStopsOnUnknownWord : Obligations.StepStopsOnUnknownWord := by
  intro s hop hpc w hw hd
  have hfetch : fetchWord ((nextOp s).2.setReply .nothing) = some w := by
    rw [hw, ← fetchWord_inside s hpc]
    simp [fetchWord]
  have hstep : step s = .fault (.unknownInstruction w s.pc) := by
    rw [step_cycle s hop, cycle_eq_unknownInstruction hfetch hd]
    simp
  have hafter : afterStep s = (nextOp s).2.setReply .nothing := by simp only [afterStep, hstep]
  exact ⟨hstep, hafter, by simp [hafter]⟩

/-- A fault of an instruction is never one of the fetch (`60_exceptions.md` R243). -/
theorem exec_ne_fetchAddressOutOfRange (i : Instr) (s : State) (a : Word) :
    exec i s ≠ .fault (.fetchAddressOutOfRange a) := by
  simp [executionFaultsAreThese i s _]

/-- A cycle faults on its fetch exactly when `pc` is above the last address of a word (`60_exceptions.md` R243). -/
theorem cycle_eq_fetchAddressOutOfRange_iff (s : State) (a : Word) :
    cycle s = .fault (.fetchAddressOutOfRange a) ↔ 0xFFE < s.pc.toNat ∧ s.pc = a := by
  rcases cycle_cases s with ⟨h, e⟩ | ⟨h, w, -, ⟨u, -, e⟩ | ⟨i, -, e⟩⟩ <;> rw [e]
  · simp [h]
  · simp [Nat.not_lt.mpr h]
  · simp [Nat.not_lt.mpr h, exec_ne_fetchAddressOutOfRange]

/-- Settles O16: the step is a cycle at the same `pc`. -/
theorem stepStopsOnFetchOutOfRange : Obligations.StepStopsOnFetchOutOfRange := by
  intro s hop
  rw [step_cycle s hop]
  simp [cycle_eq_fetchAddressOutOfRange_iff]

/-- Settles O13: the bytes side by side are the number 256 times the first plus the second. -/
theorem fetchIsBigEndian : Obligations.FetchIsBigEndian := by
  intro s hpc
  refine ⟨_, fetchWord_inside s hpc, ?_⟩
  have := (Memory.read s.mem (s.pc.toNat + 1)).isLt
  rw [wordOfBytes, toNat_sideBySide (k := 8)]
  omega

end Sys2Proof.Machine
end

section
/-! A fault comes again: what decides it is memory, the registers, I, `pc` and the stack, and TICK, the key operations and
RENDER_READ leave these alone (`60_exceptions.md` R252). -/

namespace Sys2Proof.Machine

/-- The pieces of state that no fault depends on. -/
def faultFree : List Part := [.dt, .st, .screen, .keys, .redraw, .draws, .schedule, .hostRest, .reply, .font]

variable {s t : State}

theorem exec_fault_congr (same : UnchangedExcept faultFree s t) (i : Instr) (f : Fault) :
    exec i t = .fault f ↔ exec i s = .fault f := by
  have hv : ∀ r, t.getV r = s.getV r := same .regs (by decide)
  have hi : t.i = s.i := same .index (by decide)
  have hpc : t.pc = s.pc := same .pc (by decide)
  have hstack : t.stack = s.stack := same .stack (by decide)
  rw [executionFaultsAreThese i t f, executionFaultsAreThese i s f]
  simp only [dataAddress, hv, hi, hpc, hstack]

theorem cycle_fault_congr (same : UnchangedExcept faultFree s t) {f : Fault} (h : cycle s = .fault f) :
    cycle t = .fault f := by
  have hmem : ∀ a, Memory.read t.mem a = Memory.read s.mem a := same .mem (by decide)
  have hpc : t.pc = s.pc := same .pc (by decide)
  have hfetch : fetchWord t = fetchWord s := by simp only [fetchWord, hmem, hpc]
  rcases cycle_cases s with ⟨hout, e⟩ | ⟨-, w, hw, ⟨u, hd, e⟩ | ⟨i, hd, e⟩⟩
  · rw [← h, e, cycle_eq_fetchAddressOutOfRange_iff, hpc]
    exact ⟨hout, rfl⟩
  · rw [← h, e, cycle_eq_unknownInstruction (hfetch.trans hw) hd, hpc]
  · have ht : cycle t = exec i t := by simp only [cycle, hfetch, hw, hd]
    rw [ht, exec_fault_congr same]
    exact e.symm.trans h

/-- REDRAW cleared (`46_host_operations.md` R226). -/
theorem unchangedExcept_withRedraw {ps : List Part} (h : .redraw ∈ ps) (b : Bool) :
    UnchangedExcept ps s { t with redraw := b } ↔ UnchangedExcept ps s t :=
  unchangedExcept_congr fun p => by cases p <;> simp [Same, State.getV, h]

/-- Settles O60, by the two things RENDER_READ can do. -/
theorem renderReadGivesFrame : Obligations.RenderReadGivesFrame := by
  intro s
  refine ⟨_, rfl, ?_⟩
  rcases opRenderRead_cases s with ⟨hr, e⟩ | ⟨hr, e⟩ <;> rw [e]
  · exact ⟨rfl, fun _ => ⟨rfl, (unchangedExcept_withRedraw (by decide) false).mpr (by simp)⟩, by simp [hr]⟩
  · exact ⟨hr, by simp [hr], fun _ => ⟨rfl, by simp⟩⟩

theorem opRenderRead_unchangedExcept (s : State) : UnchangedExcept [.redraw, .reply] s (opRenderRead s) := by
  rcases opRenderRead_cases s with ⟨-, e⟩ | ⟨-, e⟩ <;> rw [e]
  · exact (unchangedExcept_withRedraw (by decide) false).mpr (by simp)
  · simp

theorem writeLatch_unchangedExcept (k : Int) (b : Bool) (s : State) :
    UnchangedExcept [.keys, .reply] s (writeLatch k b s) := by
  rcases writeLatch_cases k b s with ⟨-, e⟩ | ⟨-, e⟩ <;> rw [e]
  · exact (unchangedExcept_withKey (by decide) _).mpr (by simp)
  · simp

/-- Settles O20: each of the four operations has a frame within the pieces no fault depends on. -/
theorem faultRepeats : Obligations.FaultRepeats := by
  intro s t f op hop hf ht
  have same : UnchangedExcept faultFree s t := by
    rcases hop with rfl | ⟨k, rfl⟩ | ⟨k, rfl⟩ | rfl <;> cases ht
    · exact (opTick_unchangedExcept s).mono (by decide)
    · exact (writeLatch_unchangedExcept k true s).mono (by decide)
    · exact (writeLatch_unchangedExcept k false s).mono (by decide)
    · exact (opRenderRead_unchangedExcept s).mono (by decide)
  have hreply : UnchangedExcept faultFree (s.setReply .nothing) (t.setReply .nothing) := by
    simpa [faultFree] using same
  exact cycle_fault_congr hreply hf

end Sys2Proof.Machine
end

section
/-! The operations of the host come in order and for ever, and only CYCLE among them can stop (`70_reset_and_hazards.md`
R290, log 7). -/

namespace Sys2Proof.Machine

variable {s t : State}

theorem perform_hostRest {op : HostOp} (h : perform op s = .next t) : t.hostRest = s.hostRest := by
  cases op with
  | cycle =>
    obtain ⟨-, -, -, -, -, frame⟩ := cycleNeverDoes s t h
    exact frame .hostRest (by decide)
  | load bytes =>
    cases h
    rcases opLoad_cases bytes s with ⟨-, e⟩ | ⟨-, e⟩ <;> simp [e]
  | keySet k => cases h; exact writeLatch_unchangedExcept k true s .hostRest (by decide)
  | keyClear k => cases h; exact writeLatch_unchangedExcept k false s .hostRest (by decide)
  | renderRead => cases h; exact opRenderRead_unchangedExcept s .hostRest (by decide)
  | reset => cases h; rfl
  | tick => cases h; rfl

/-- An operation, completed or faulted, leaves what the host has to do after it (`60_exceptions.md` R252). -/
theorem afterStep_host (s : State) :
    (afterStep s).schedule = (nextOp s).2.schedule ∧ (afterStep s).hostRest = (nextOp s).2.hostRest := by
  unfold afterStep
  cases h : step s with
  | next t => exact ⟨(perform_keeps_schedule_font h).1, perform_hostRest h⟩
  | fault f => exact ⟨rfl, rfl⟩
  | refused r => exact absurd h (perform_ne_refused _ _ r)

/-- After as many operations as were scheduled the schedule is used up. -/
theorem afterSteps_schedule (ops : List HostOp) (s : State) (h : s.schedule = ops) :
    (afterSteps ops.length s).schedule = [] ∧ (afterSteps ops.length s).hostRest = s.hostRest := by
  induction ops generalizing s with
  | nil => exact ⟨h, rfl⟩
  | cons op rest ih =>
    obtain ⟨hsched, hrest⟩ := afterStep_host s
    have hnext : nextOp s = (op, { s with schedule := rest }) := by simp [nextOp, h]
    rw [hnext] at hsched hrest
    obtain ⟨hs, hr⟩ := ih (afterStep s) hsched
    exact ⟨hs, hr.trans hrest⟩

theorem nextOp_loop_cons {op : HostOp} {rest : List HostOp} (h : s.schedule = [])
    (hr : s.hostRest = .loop (op :: rest)) : nextOp s = (op, { s with schedule := rest }) := by
  simp [nextOp, h, hr]

theorem nextOp_free {n : Nat} (h : s.schedule = []) (hr : s.hostRest = .free n) :
    nextOp s = (Config.hostOp n, { s with hostRest := .free (n + 1) }) := by
  simp [nextOp, h, hr]

/-- One round of a list of operations that is repeated (log 7). -/
theorem afterSteps_loop_cons {op : HostOp} {rest : List HostOp} (h : s.schedule = [])
    (hr : s.hostRest = .loop (op :: rest)) :
    (afterSteps (rest.length + 1) s).schedule = [] ∧
      (afterSteps (rest.length + 1) s).hostRest = .loop (op :: rest) := by
  obtain ⟨hsched, hrest⟩ := afterStep_host s
  rw [nextOp_loop_cons h hr] at hsched hrest
  obtain ⟨hs', hr'⟩ := afterSteps_schedule rest (afterStep s) hsched
  exact ⟨hs', (hr'.trans hrest).trans hr⟩

/-- The free operations come one after the other, for ever (log 7). -/
theorem afterSteps_free (k n : Nat) (s : State) (h : s.schedule = []) (hr : s.hostRest = .free n) :
    (afterSteps k s).schedule = [] ∧ (afterSteps k s).hostRest = .free (n + k) := by
  induction k generalizing n s with
  | zero => exact ⟨h, hr⟩
  | succ k ih =>
    obtain ⟨hsched, hrest⟩ := afterStep_host s
    rw [nextOp_free h hr] at hsched hrest
    have number : n + (k + 1) = n + 1 + k := by omega
    rw [number]
    exact ih (n + 1) (afterStep s) (hsched.trans h) hrest

/-- Every operation but CYCLE gives a next state (`46_host_operations.md` R220). -/
theorem perform_completes {op : HostOp} (h : op ≠ .cycle) (s : State) : ∃ t, perform op s = .next t := by
  cases op with
  | cycle => exact absurd rfl h
  | _ => exact ⟨_, rfl⟩

/-- Settles O17, from the next operation in each of the cases and the rule that a step leaves the later ones. -/
theorem stepPerformsScheduledOperation : Obligations.StepPerformsScheduledOperation := by
  intro s
  refine ⟨step_scheduled s, fun h => ⟨fun hr => ?_, fun op rest hr => ?_, fun n hr => ?_⟩, fun hop => ?_⟩
  · simp [step, nextOp, h, hr]
  · exact ⟨by rw [step, nextOp_loop_cons h hr], afterSteps_loop_cons h hr⟩
  · exact ⟨by rw [step, nextOp_free h hr], fun k => afterSteps_free k n s h hr⟩
  · obtain ⟨t, ht⟩ := perform_completes hop (nextOp s).2
    obtain ⟨hsched, -⟩ := perform_keeps_schedule_font ht
    exact ⟨t, ht, hsched, perform_hostRest ht⟩

end Sys2Proof.Machine
end

section
/-! Ticks in a row (`60_exceptions.md` R253, R254). -/

namespace Sys2Proof.Machine

/-- The timers after `n` TICKs. -/
theorem ticks_timers (n : Nat) (s : State) :
    (ticks n s).2.dt.toNat = s.dt.toNat - n ∧ (ticks n s).2.st.toNat = s.st.toNat - n := by
  induction n generalizing s with
  | zero => exact ⟨rfl, rfl⟩
  | succ n ih =>
    obtain ⟨hdt, hst⟩ := ih (opTick s)
    rw [opTick_dt, toNat_countDown] at hdt
    rw [opTick_st, toNat_countDown] at hst
    simp only [ticks]
    omega

theorem length_ticks (n : Nat) (s : State) : (ticks n s).1.length = n := by
  induction n generalizing s with
  | zero => rfl
  | succ n ih => simp [ticks, ih]

/-- The output of the tick with number `k + 1`: an edge if that number is the old ST. -/
theorem getElem_ticks (n : Nat) (s : State) (k : Nat) (hk : k < n) :
    (ticks n s).1[k]? = some (.soundEdge (decide (k + 1 = s.st.toNat))) := by
  induction n generalizing s k with
  | zero => omega
  | succ n ih =>
    cases k with
    | zero =>
      have first : s.st = 1#8 ↔ 1 = s.st.toNat := by bv_omega
      simp [ticks, opTick_reply, first]
    | succ k =>
      have later : k + 1 = s.st.toNat - 1 ↔ k + 1 + 1 = s.st.toNat := by omega
      simp [ticks, ih (opTick s) k (by omega), toNat_countDown, later]

/-- Settles O57, by induction on the number of ticks. -/
theorem ticksInARow : Obligations.TicksInARow := fun n s =>
  have ⟨hdt, hst⟩ := ticks_timers n s
  ⟨hdt, hst, length_ticks n s, getElem_ticks n s⟩

end Sys2Proof.Machine
end

section
/-! Calls and returns, one by one and nested (`41_flow.md` R120, R122). -/

namespace Sys2Proof.Machine

theorem exec_call_of_room {nnn : Addr} {s : State} (h : s.stack.length < 16) :
    exec (.call nnn) s = .next { s with pc := jumpTarget nnn, stack := (s.pc + 2) :: s.stack } := by
  rcases execCall_cases s nnn with ⟨hfull, -⟩ | ⟨-, e⟩
  · omega
  · exact e

theorem exec_call_of_full {nnn : Addr} {s : State} (h : 16 ≤ s.stack.length) :
    exec (.call nnn) s = .fault (.stackOverflow s.pc) := by
  rcases execCall_cases s nnn with ⟨-, e⟩ | ⟨hroom, -⟩
  · exact e
  · omega

theorem exec_ret_of_cons {g : Nibble} {s : State} {w : Word} {rest : List Word} (h : s.stack = w :: rest) :
    exec (.ret g) s = .next { s with pc := w, stack := rest } := by
  rcases execRet_cases s with ⟨hnil, -⟩ | ⟨w', rest', hcons, e⟩
  · simp [h] at hnil
  · obtain ⟨rfl, rfl⟩ := List.cons.inj (h.symm.trans hcons)
    exact e

theorem exec_ret_of_nil {g : Nibble} {s : State} (h : s.stack = []) :
    exec (.ret g) s = .fault (.stackUnderflow s.pc) := by
  rcases execRet_cases s with ⟨-, e⟩ | ⟨w, rest, hcons, -⟩
  · exact e
  · simp [h] at hcons

/-- `pc` and the stack replaced. -/
theorem unchangedExcept_withPcStack {ps : List Part} {s t : State} (hp : .pc ∈ ps) (hs : .stack ∈ ps) (a : Word)
    (l : List Word) : UnchangedExcept ps s { t with pc := a, stack := l } ↔ UnchangedExcept ps s t :=
  (unchangedExcept_withStack (t := t.setPc a) hs l).trans (unchangedExcept_setPc hp a)

/-- Settles O22, by whether the stack has room. -/
theorem callPushesReturnAddress : Obligations.CallPushesReturnAddress := by
  refine ⟨fun w => decode_of_row (.call 0), fun nnn s => ⟨fun h => ?_, exec_call_of_full⟩⟩
  exact ⟨_, exec_call_of_room h, rfl, toNat_jumpTarget nnn,
    (unchangedExcept_withPcStack (by decide) (by decide) _ _).mpr (by simp)⟩

/-- Settles O23, by whether the stack has an entry. -/
theorem returnPopsPc : Obligations.ReturnPopsPc := by
  refine ⟨fun w h => ⟨_, decode_of_row (.ret 0) h⟩, fun g s => ⟨fun w rest h => ?_, exec_ret_of_nil⟩⟩
  exact ⟨_, exec_ret_of_cons h, rfl, rfl, (unchangedExcept_withPcStack (by decide) (by decide) _ _).mpr (by simp)⟩

/-- Settles O24: the entry the return pops is the one the call pushed. -/
theorem returnUndoesCall : Obligations.ReturnUndoesCall := by
  intro nnn g s h
  have frame : UnchangedExcept [.pc] s (s.setPc (s.pc + 2)) := by simp
  exact ⟨_, _, exec_call_of_room h, exec_ret_of_cons rfl, rfl, frame⟩

/-- Calls in turn that all find room push the address after the first call and, for each target but the last, the address
after the call that is executed there. -/
theorem callEach_of_room (a : Addr) (targets : List Addr) (s : State) (h : s.stack.length + targets.length < 16) :
    ∃ t, callEach (a :: targets) s = some t ∧
      t.stack = ((a :: targets).dropLast.map fun b => (b.setWidth 16 + 2 : Word)).reverse ++ (s.pc + 2) :: s.stack := by
  induction targets generalizing a s with
  | nil => exact ⟨_, by rw [callEach, exec_call_of_room h]; rfl, rfl⟩
  | cons b rest ih =>
    simp only [List.length_cons] at h
    obtain ⟨t, ht, hstack⟩ := ih b { s with pc := jumpTarget a, stack := (s.pc + 2) :: s.stack } (by simp; omega)
    refine ⟨t, by rw [callEach, exec_call_of_room (by omega)]; exact ht, ?_⟩
    simp [hstack, jumpTarget]

/-- More calls than the stack has room for: one of them faults. -/
theorem callEach_eq_none (targets : List Addr) (s : State) (hs : s.stack.length ≤ 16)
    (h : 16 < s.stack.length + targets.length) : callEach targets s = none := by
  induction targets generalizing s with
  | nil => simp at h; omega
  | cons a rest ih =>
    rcases execCall_cases s a with ⟨-, e⟩ | ⟨hroom, e⟩
    · simp only [callEach, exec, e]
    · simp only [callEach, exec, e]
      simp only [List.length_cons] at h
      exact ih _ hroom (by simp; omega)

/-- Returns in a row give the entries of the stack, newest first. -/
theorem returnEach_eq_take (n : Nat) (s : State) (h : n ≤ s.stack.length) : returnEach n s = some (s.stack.take n) := by
  induction n generalizing s with
  | zero => simp [returnEach]
  | succ n ih =>
    obtain ⟨w, rest, hs⟩ := List.exists_cons_of_length_pos (Nat.lt_of_lt_of_le n.succ_pos h)
    rw [returnEach, exec_ret_of_cons hs]
    simp only [ih { s with pc := w, stack := rest } (by simpa [hs] using h), hs, List.take_succ_cons, Option.map_some]

/-- Settles O25: the calls leave the return addresses on the stack, and the returns take them off in order. -/
theorem nestedCallsAndReturns : Obligations.NestedCallsAndReturns := by
  intro a targets s hs
  constructor
  · intro hlen
    obtain ⟨t, ht, hstack⟩ := callEach_of_room a targets s (by simpa [hs] using hlen)
    have hcount : t.stack.length = targets.length + 1 := by simp [hstack, hs]
    exact ⟨t, ht, by rw [returnEach_eq_take _ t hcount.ge, ← hcount, List.take_length, hstack, hs]⟩
  · intro hlen
    exact callEach_eq_none (a :: targets) s (by simp [hs]) (by simp [hs]; omega)

end Sys2Proof.Machine
end

section
/-! What RESET and the start of a session leave (`10_state.md` R46, `70_reset_and_hazards.md` R280). -/

namespace Sys2Proof.Machine

theorem getD_fontBytes_glyphZero (font : Font) (k : Fin 5) :
    (fontBytes font).getD k 0 = [0xF0, 0x90, 0x90, 0x90, 0xF0][k] := by
  fin_cases k <;> rfl

theorem getD_fontBytes_font (font : Font) (k : Fin 75) : (fontBytes font).getD (5 + k) 0 = font[k] := by
  rw [fontBytes, List.getD_append_right _ _ _ _ (by simp [glyphZero])]
  simp [glyphZero]

theorem getV_reset (r : Nibble) : State.reset.getV r = 0 := by simp [State.getV, State.reset]

/-- Settles O1: RESET leaves what a session starts with, and that is read off its definition, memory by the rule for the
font's bytes. -/
theorem resetLeavesResetValues : Obligations.ResetLeavesResetValues := by
  intro font s t h
  have same : UnchangedExcept [.draws, .schedule, .hostRest] (State.powerOn font) t := by
    rcases h with rfl | ⟨rfl, h⟩
    · simp
    · cases h
      exact opReset_unchangedExcept_powerOn s
  have hmem (a : Nat) : Memory.read t.mem a = (fontBytes font).getD a 0 :=
    (same .mem (by decide) a).trans (Memory.read_powerOn font a)
  refine ⟨fun k => (hmem k).trans (getD_fontBytes_glyphZero font k),
    fun k => (hmem (5 + k)).trans (getD_fontBytes_font font k), same .font (by decide), fun a ha _ => ?_,
    fun r => (same .regs (by decide) r).trans (getV_reset r), same .index (by decide), same .pc (by decide),
    same .stack (by decide), same .dt (by decide), same .st (by decide),
    fun k hk => (same .screen (by decide) k hk).trans (getPixel_blankScreen k),
    fun k => (same .keys (by decide) k).trans (by simp [State.reset]), same .redraw (by decide), same .reply (by decide)⟩
  rw [hmem a]
  exact List.getD_eq_default _ _ (by simpa using ha)

/-- Settles O2, by running the model on the default font. -/
theorem resetIsTheDefaultFont : Obligations.ResetIsTheDefaultFont :=
  ⟨State.powerOn_defaultFont.symm, by decide +kernel, by decide +kernel, by decide +kernel⟩

end Sys2Proof.Machine
end

section
/-! Jumps and skips: nothing changes but `pc` (`41_flow.md` R121 to R127). -/

namespace Sys2Proof.Machine

/-- Settles O21: the instruction is exactly a write of `pc`. -/
theorem jumpSetsPc : Obligations.JumpSetsPc :=
  ⟨fun _ => decode_of_row (.jp 0), fun nnn _ => ⟨_, rfl, toNat_jumpTarget nnn, by simp⟩⟩

/-- Settles O28: the sum of a 12-bit and an 8-bit number fits `pc`. -/
theorem jumpWithOffset : Obligations.JumpWithOffset := by
  refine ⟨fun _ => decode_of_row (.jpV0 0), fun nnn s => ?_⟩
  have sum := toNat_offsetTarget nnn (s.getV 0)
  have := nnn.isLt
  have := (s.getV 0).isLt
  exact ⟨_, rfl, sum, by simp only [State.setPc_pc, sum]; omega, by simp⟩

/-- All that a skip does, taken or not (`41_flow.md` R123). -/
theorem State.advance_skipIf_effect (s : State) (c : Bool) :
    UnchangedExcept [.pc] s (s.advance.skipIf c) ∧ (s.advance.skipIf c).pc = if c then s.pc + 4 else s.pc + 2 :=
  ⟨by simp, s.advance_skipIf_pc c⟩

/-- A skip on a condition's opposite. -/
theorem State.advance_skipIf_not_effect (s : State) (c : Bool) :
    UnchangedExcept [.pc] s (s.advance.skipIf (!c)) ∧
      (s.advance.skipIf (!c)).pc = if c then s.pc + 2 else s.pc + 4 :=
  ⟨by simp, by cases c <;> exact s.advance_skipIf_pc _⟩

/-- Settles O26: SE skips on equality and SNE on its opposite. -/
theorem skipOnImmediate : Obligations.SkipOnImmediate := by
  refine ⟨fun _ => decode_of_row (.seImm 0 0), fun _ => decode_of_row (.sneImm 0 0), fun x kk s => ⟨?_, ?_⟩⟩
  · exact ⟨_, rfl, by simpa using s.advance_skipIf_effect (s.getV x == kk)⟩
  · exact ⟨_, rfl, by simpa using s.advance_skipIf_not_effect (s.getV x == kk)⟩

/-- Settles O27, like the skips on an immediate; the ignored nibble is the word's low one. -/
theorem skipOnRegisters : Obligations.SkipOnRegisters := by
  refine ⟨fun _ h => ⟨_, decode_of_row (.seReg 0 0 0) h⟩, fun _ h => ⟨_, decode_of_row (.sneReg 0 0 0) h⟩,
    fun x y g s => ⟨?_, ?_⟩⟩
  · exact ⟨_, rfl, by simpa using s.advance_skipIf_effect (s.getV x == s.getV y)⟩
  · exact ⟨_, rfl, by simpa using s.advance_skipIf_not_effect (s.getV x == s.getV y)⟩

end Sys2Proof.Machine
end

section
/-! Arithmetic and logic on registers (`42_alu.md`). -/

namespace Sys2Proof.Machine

/-- A register write seen bit by bit. -/
theorem State.advance_setV_bits (s : State) (x : Nibble) {b : Byte} {bit : Nat → Bool}
    (h : ∀ k, k < 8 → b.getLsbD k = bit k) :
    (s.advance.setV x b).pc = s.pc + 2 ∧ (∀ k, k < 8 → ((s.advance.setV x b).getV x).getLsbD k = bit k) ∧
      (∀ r, r ≠ x → (s.advance.setV x b).getV r = s.getV r) ∧ UnchangedExcept [.regs, .pc] s (s.advance.setV x b) := by
  obtain ⟨hpc, hv, frame⟩ := s.advance_setV_effect x b
  exact ⟨hpc, by simpa using h, fun r hr => (hv r).trans (if_neg hr), frame⟩

/-- Settles O31: each of the four is exactly a register write. -/
theorem copyAndLogic : Obligations.CopyAndLogic := by
  refine ⟨fun _ => decode_of_row (.ldReg 0 0), fun _ => decode_of_row (.orReg 0 0), fun _ => decode_of_row (.andReg 0 0),
    fun _ => decode_of_row (.xorReg 0 0), ?_⟩
  rintro x y s i op (⟨rfl, rfl⟩ | ⟨rfl, rfl⟩ | ⟨rfl, rfl⟩ | ⟨rfl, rfl⟩)
  · exact ⟨_, rfl, s.advance_setV_bits x fun _ _ => rfl⟩
  · exact ⟨_, rfl, s.advance_setV_bits x fun _ _ => BitVec.getLsbD_or⟩
  · exact ⟨_, rfl, s.advance_setV_bits x fun _ _ => BitVec.getLsbD_and⟩
  · exact ⟨_, rfl, s.advance_setV_bits x fun _ _ => BitVec.getLsbD_xor⟩

/-- All that an instruction does whose effect, besides moving on, is a result and then the flag: the flag is the later
write (`10_state.md` R23, D12, log 12). -/
theorem State.advance_setResultAndFlag_effect (s : State) (x : Nibble) {b : Byte} {f : Bool} {result flag : Nat}
    (hb : b.toNat = result) (hf : (if f then 1 else 0) = flag) :
    (s.advance.setResultAndFlag x b f).pc = s.pc + 2 ∧
      (x ≠ vf → ((s.advance.setResultAndFlag x b f).getV x).toNat = result) ∧
      ((s.advance.setResultAndFlag x b f).getV vf).toNat = flag ∧
      (∀ r, r ≠ x → r ≠ vf → (s.advance.setResultAndFlag x b f).getV r = s.getV r) ∧
      UnchangedExcept [.regs, .pc] s (s.advance.setResultAndFlag x b f) := by
  refine ⟨rfl, fun hx => ?_, ?_, fun r hx hvf => ?_, by simp⟩
  · rw [State.getV_setResultAndFlag, if_neg hx, if_pos rfl, hb]
  · rw [State.getV_setResultAndFlag, if_pos rfl, toNat_flagByte, hf]
  · rw [State.getV_setResultAndFlag, if_neg hvf, if_neg hx, State.getV_advance]

/-- Settles O32: the sum is the byte addition, and the flag the carry of the unclamped sum. -/
theorem addRegistersWithCarry : Obligations.AddRegistersWithCarry := fun x y s =>
  ⟨_, rfl, s.advance_setResultAndFlag_effect x (BitVec.toNat_add _ _) (by simp [carryOut])⟩

/-- The difference of two bytes as a number: what is missing is borrowed from 256 (`42_alu.md` R148). -/
theorem toNat_sub_byte (a b : Byte) :
    (a - b).toNat = if b.toNat ≤ a.toNat then a.toNat - b.toNat else a.toNat + 256 - b.toNat := by
  have := a.isLt
  have := b.isLt
  rw [BitVec.toNat_sub]
  split <;> omega

theorem ite_noBorrow (a b : Byte) : (if noBorrow a b then 1 else 0) = if b.toNat ≤ a.toNat then 1 else 0 := by
  simp [noBorrow, BitVec.le_def]

/-- Settles O33: SUB and SUBN are the one subtraction with its operands exchanged. -/
theorem subtractWithNoBorrowFlag : Obligations.SubtractWithNoBorrowFlag := by
  rintro x y s i a b (⟨rfl, rfl, rfl⟩ | ⟨rfl, rfl, rfl⟩)
  · exact ⟨_, rfl, s.advance_setResultAndFlag_effect x (toNat_sub_byte _ _) (ite_noBorrow _ _)⟩
  · exact ⟨_, rfl, s.advance_setResultAndFlag_effect x (toNat_sub_byte _ _) (ite_noBorrow _ _)⟩

theorem toNat_shiftRight_one (a : Byte) : (a >>> 1).toNat = a.toNat / 2 := by simp [Nat.shiftRight_eq_div_pow]

theorem toNat_shiftLeft_one (a : Byte) : (a <<< 1).toNat = a.toNat * 2 % 256 := by simp [Nat.shiftLeft_eq]

theorem ite_lowBit (a : Byte) : (if lowBit a then 1 else 0) = a.toNat % 2 := by
  simp only [lowBit_eq, decide_eq_true_eq]
  split <;> omega

theorem ite_highBit (a : Byte) : (if highBit a then 1 else 0) = a.toNat / 128 := by
  have := a.isLt
  simp only [highBit_eq, decide_eq_true_eq]
  split <;> omega

/-- Settles O34: a shift halves or doubles the number, and the flag is its lowest or highest bit. -/
theorem shiftsInPlace : Obligations.ShiftsInPlace := fun x _ s =>
  ⟨⟨_, rfl, s.advance_setResultAndFlag_effect x (toNat_shiftRight_one _) (ite_lowBit _)⟩,
    ⟨_, rfl, s.advance_setResultAndFlag_effect x (toNat_shiftLeft_one _) (ite_highBit _)⟩⟩

/-- Settles O35: the AND of any byte and kk has no bit that kk has not. -/
theorem randomByteIsMasked : Obligations.RandomByteIsMasked := by
  refine ⟨fun _ => decode_of_row (.rnd 0 0), fun x kk s => ⟨_, rfl, rfl, fun k _ => ?_, ?_, rfl, fun r hr => ?_, by simp⟩⟩
  · rw [State.getV_setV_same, BitVec.getLsbD_and]
  · rw [State.getV_setV_same, BitVec.toNat_and]
    exact Nat.and_le_right
  · exact State.getV_setV_other _ _ _ _ hr

end Sys2Proof.Machine
end

section
/-! The index register and memory at I (`43_index_memory.md`). -/

namespace Sys2Proof.Machine

variable {s : State} {x r : Nibble}

/-- Settles O36: both are exactly a write of I. -/
theorem loadIndexAndFontAddress : Obligations.LoadIndexAndFontAddress :=
  ⟨fun _ => decode_of_row (.ldI 0), fun _ => decode_of_row (.ldF 0), fun _ _ => ⟨_, rfl, rfl, rfl, by simp⟩,
    fun x s => ⟨_, rfl, rfl, toNat_fontAddress (s.getV x), by simp⟩⟩

/-- The sum of I and a byte, as I holds it (`43_index_memory.md` R171). -/
theorem toNat_index_add (i : Addr) (b : Byte) : (i + b.setWidth 12).toNat = (i.toNat + b.toNat) % 4096 := by
  have := b.isLt
  rw [BitVec.toNat_add, BitVec.toNat_setWidth_of_le (by decide)]

/-- Settles O37: I is written first and VF last, both from the sum of the old values. -/
theorem addIndexWithOverflowFlag : Obligations.AddIndexWithOverflowFlag := by
  refine fun x s => ⟨_, rfl, rfl, toNat_index_add s.i (s.getV x), ?_, fun r hr => ?_, by simp⟩
  · rw [State.getV_setFlag_vf, toNat_flagByte]
    simp [indexOverflow]
  · exact State.getV_setV_other _ _ _ _ hr

theorem exec_ldB_of_inside (h : s.i.toNat + 3 ≤ memSize) : exec (.ldB x) s =
    .next (s.advance.setMem (Memory.writeBytes s.mem s.i.toNat (decimalDigits (s.getV x)))) := by
  rcases execLdB_cases s x with ⟨hout, -⟩ | ⟨-, e⟩
  · exact absurd hout (not_beyond_of_le_memSize h)
  · exact e

/-- The three bytes `LD B` stores, as numbers (`43_index_memory.md` R173). -/
theorem read_storedDigits (hm : Memory.wf s.mem) (h : s.i.toNat + 3 ≤ memSize) (b : Byte) (k : Fin 3) :
    (Memory.read (Memory.writeBytes s.mem s.i.toNat (decimalDigits b)) (s.i.toNat + k)).toNat =
      [b.toNat / 100, b.toNat / 10 % 10, b.toNat % 10][k] := by
  have := b.isLt
  have stored := Memory.read_writeBytes_getElem s.mem hm s.i.toNat (decimalDigits b) h k k.isLt
  rw [decimalDigits_eq] at stored ⊢
  fin_cases k <;> rw [Option.some.inj stored] <;> simp <;> omega

/-- Settles O38: the three bytes are the stored digits, and a store leaves the bytes outside its range. -/
theorem storeDecimalDigits : Obligations.StoreDecimalDigits := by
  rintro x s _ hm rfl hin
  have h : s.i.toNat + 3 ≤ memSize := Nat.succ_le_succ hin
  have digits := read_storedDigits hm h (s.getV x)
  refine ⟨_, exec_ldB_of_inside h, rfl, digits 0, digits 1, digits 2, fun a' ha => ?_, by simp⟩
  exact Memory.read_writeBytes_outside s.mem hm _ _ a' (ha.imp_right Nat.succ_le_of_lt)

theorem exec_ldMemVx_of_inside (h : s.i.toNat + (x.toNat + 1) ≤ memSize) : exec (.ldMemVx x) s =
    .next (s.advance.setMem (Memory.writeBytes s.mem s.i.toNat (registersUpTo s x))) := by
  rcases execLdMemVx_cases s x with ⟨hout, -⟩ | ⟨-, e⟩
  · exact absurd hout (not_beyond_of_le_memSize h)
  · exact e

/-- All an `LD [I], Vx` that completes can do (`43_index_memory.md` R175). -/
theorem execLdMemVx_eq_next {t : State} (h : execLdMemVx x s = .next t) : s.i.toNat + (x.toNat + 1) ≤ memSize ∧
    t = s.advance.setMem (Memory.writeBytes s.mem s.i.toNat (registersUpTo s x)) := by
  rcases execLdMemVx_cases s x with ⟨-, e⟩ | ⟨hin, e⟩ <;> cases e.symm.trans h
  exact ⟨hin, rfl⟩

/-- The byte stored at I + r is Vr (`43_index_memory.md` R175). -/
theorem read_storedRegisters (hm : Memory.wf s.mem) (h : s.i.toNat + (x.toNat + 1) ≤ memSize) (hr : r ≤ x) :
    Memory.read (Memory.writeBytes s.mem s.i.toNat (registersUpTo s x)) (s.i.toNat + r.toNat) = s.getV r := by
  have hlen := length_registersUpTo s x
  have stored := Memory.read_writeBytes_getElem s.mem hm s.i.toNat (registersUpTo s x) (hlen ▸ h) r.toNat
    (hlen ▸ Nat.lt_succ_of_le hr)
  rw [getElem_registersUpTo s x r.toNat hr, BitVec.ofNat_toNat, BitVec.setWidth_eq] at stored
  exact Option.some.inj stored

/-- Settles O39, like `LD B`. -/
theorem storeRegisters : Obligations.StoreRegisters := by
  rintro x s _ hm rfl hin
  have h : s.i.toNat + (x.toNat + 1) ≤ memSize := Nat.succ_le_succ hin
  refine ⟨_, exec_ldMemVx_of_inside h, rfl, fun r hr => read_storedRegisters hm h hr, fun a' ha => ?_, by simp⟩
  refine Memory.read_writeBytes_outside s.mem hm _ _ a' ?_
  rw [length_registersUpTo]
  exact ha.imp_right Nat.succ_le_of_lt

theorem exec_ldVxMem_of_inside (h : s.i.toNat + (x.toNat + 1) ≤ memSize) : exec (.ldVxMem x) s =
    .next { s.advance with v := loadRegisters s.v 0 (Memory.readBytes s.mem s.i.toNat (x.toNat + 1)) } := by
  rcases execLdVxMem_cases s x with ⟨hout, -⟩ | ⟨-, e⟩
  · exact absurd hout (not_beyond_of_le_memSize h)
  · exact e

/-- Settles O41: register r is loaded from I + r, where it was stored. -/
theorem loadAfterStoreRestores : Obligations.LoadAfterStoreRestores := by
  intro x s t u w hm hstore hmem hi hload r hr
  obtain ⟨hin, rfl⟩ := execLdMemVx_eq_next hstore
  have hw := hload.symm.trans (exec_ldVxMem_of_inside (hi ▸ hin))
  cases hw
  rw [getV_loadedRegisters, if_pos hr, hmem, hi]
  exact read_storedRegisters hm hin hr

/-- Settles O42: the two bytes at the next instruction are those stored from V0 and V1. -/
theorem storeIsFetchedNext : Obligations.StoreIsFetchedNext := by
  intro x s t hm hx hpc hi hstore
  obtain ⟨hin, rfl⟩ := execLdMemVx_eq_next hstore
  have next : (s.pc + 2).toNat = s.i.toNat := by
    rw [dataAddress] at hi
    bv_omega
  have first := read_storedRegisters (r := 0) hm hin (Nat.zero_le x.toNat)
  have second := read_storedRegisters (r := 1) hm hin hx
  rw [fetchWord_inside _ (by simp only [State.setMem_pc, State.advance_pc]; bv_omega)]
  simp only [State.setMem_pc, State.advance_pc, State.setMem_mem, next]
  exact congrArg some (congrArg₂ wordOfBytes first second)

end Sys2Proof.Machine

namespace Sys2Proof

open Machine

/-- Settles O40: the instruction is exactly a write of the register file. -/
theorem loadRegisters : Obligations.LoadRegisters := by
  intro x s hin
  have h : s.i.toNat + (x.toNat + 1) ≤ memSize := Nat.succ_le_succ hin
  exact ⟨_, exec_ldVxMem_of_inside h, rfl, getV_loadedRegisters s x, (unchangedExcept_withV (by decide) _).mpr (by simp)⟩

end Sys2Proof
end

section
/-! The display instructions (`44_display.md`). -/

namespace Sys2Proof.Machine

variable {s t : State} {x y n : Nibble}

/-- Settles O43: the screen written is the blank one. -/
theorem clearScreen : Obligations.ClearScreen :=
  ⟨fun _ h => ⟨_, decode_of_row (.cls 0) h⟩, fun _ _ => ⟨_, rfl, rfl, fun k _ => getPixel_blankScreen k, rfl, by simp⟩⟩

/-- The bit of the sprite read at I is the source bit of the draw (`44_display.md` R191). -/
theorem spriteBit_readBytes (s : State) (x y n : Nibble) (qx qy : Nat) :
    spriteBit (Memory.readBytes s.mem s.i.toNat n.toNat) (s.getV x).toNat (s.getV y).toNat qx qy =
      sourceBit s x y n qx qy := by
  unfold spriteBit sourceBit dataAddress
  rw [Memory.length_readBytes]
  generalize (s.getV x).toNat = x0
  generalize (s.getV y).toNat = y0
  have inside : (x0 ≤ qx ∧ qx < x0 + 8 ∧ y0 ≤ qy ∧ qy < y0 + n.toNat) ↔
      (x0 ≤ qx ∧ qx - x0 < 8 ∧ y0 ≤ qy ∧ qy - y0 < n.toNat) := by omega
  rw [decide_eq_decide.mpr inside]
  by_cases hrow : qy - y0 < n.toNat
  · rw [List.getD_eq_getElem?_getD, Memory.getElem_readBytes _ _ _ _ hrow, Option.getD_some]
  · simp [hrow]

/-- All a `DRW` that completes can do: the grid XORed with the source bits, and the collision in VF (`44_display.md`
R191). -/
theorem execDrw_eq_next (h : execDrw x y n s = .next t) :
    ∃ d : Drawing, t = (s.advance.setScreen d.1).setFlag d.2 ∧
      (∀ qx qy, qx < 64 → qy < 32 →
        getPixel d.1 (qx + qy * 64) = (getPixel s.fb (qx + qy * 64) ^^ sourceBit s x y n qx qy)) ∧
      (d.2 = true ↔ Collides s x y n) := by
  rcases execDrw_cases s x y n with ⟨-, -, e⟩ | ⟨-, d, rfl, e⟩ <;> cases e.symm.trans h
  obtain ⟨pixels, collision⟩ := drawRows_spec (s.getV x).toNat (s.getV y).toNat
    (Memory.readBytes s.mem s.i.toNat n.toNat) (s.fb, false)
  refine ⟨_, rfl, fun qx qy hx hy => ?_, ?_⟩
  · rw [pixels qx qy ⟨hx, hy⟩, spriteBit_readBytes]
  · rw [collision]
    simp [spriteBit_readBytes, Collides, inGrid, and_assoc]

theorem execDrw_completes (h : n = 0 ∨ dataAddress s + n.toNat - 1 ≤ 0xFFF) : ∃ t, execDrw x y n s = .next t := by
  rcases execDrw_cases s x y n with ⟨hn, hout, -⟩ | ⟨-, _, -, e⟩
  · rcases h with rfl | h
    · exact absurd hn (by decide)
    · exact absurd h (Nat.not_le.mpr hout)
  · exact ⟨_, e⟩

theorem flagByte_eq_one_iff (f : Bool) : flagByte f = 1 ↔ f = true := by cases f <;> simp [flagByte]

theorem flagByte_eq_zero_iff (f : Bool) : flagByte f = 0 ↔ f = false := by cases f <;> simp [flagByte]

/-- Settles O44, from what the walk over the sprite does to the grid. -/
theorem drawXorsSprite : Obligations.DrawXorsSprite := by
  intro x y n s h
  obtain ⟨t, ht⟩ := execDrw_completes (x := x) (y := y) h
  obtain ⟨d, rfl, pixels, collision⟩ := execDrw_eq_next ht
  refine ⟨_, ht, rfl, pixels, fun hc => ?_, fun hc => ?_, fun r hr => State.getV_setV_other _ _ _ _ hr, rfl, by simp⟩
  · rw [State.getV_setFlag_vf, flagByte_eq_one_iff, collision]
    exact hc
  · rw [State.getV_setFlag_vf, flagByte_eq_zero_iff, ← Bool.not_eq_true, collision]
    exact hc

/-- The source bits depend on the two coordinate registers, I and memory alone (`44_display.md` R191). -/
theorem sourceBit_congr (hx : t.getV x = s.getV x) (hy : t.getV y = s.getV y) (hi : t.i = s.i) (hmem : t.mem = s.mem) :
    sourceBit t x y n = sourceBit s x y n := by
  funext qx qy
  simp only [sourceBit, dataAddress, hx, hy, hi, hmem]

/-- On a blank screen nothing collides (`44_display.md` R191). -/
theorem not_collides_of_blank (h : ∀ k, k < 2048 → getPixel s.fb k = false) : ¬ Collides s x y n := by
  rintro ⟨qx, qy, hx, hy, hlit, -⟩
  rw [h _ (by omega)] at hlit
  exact Bool.noConfusion hlit

/-- Framebuffers that read alike by column and row are equal. -/
theorem screen_ext_grid (f g : FrameBuffer)
    (h : ∀ qx qy, qx < 64 → qy < 32 → getPixel f (qx + qy * 64) = getPixel g (qx + qy * 64)) : f = g := by
  refine screen_ext f g fun k hk => ?_
  have split : k % 64 + k / 64 * 64 = k := by omega
  rw [← split]
  exact h _ _ (by omega) (by omega)

/-- Settles O45: the second draw has the same source bits, and XOR with them undoes itself; over a blank screen the first
draw lights exactly them. -/
theorem drawTwiceRestores : Obligations.DrawTwiceRestores := by
  intro x y n s t u hx hy ht hu
  obtain ⟨d, rfl, pixels, collision⟩ := execDrw_eq_next ht
  obtain ⟨d', rfl, pixels', collision'⟩ := execDrw_eq_next hu
  have bits : sourceBit ((s.advance.setScreen d.1).setFlag d.2) x y n = sourceBit s x y n :=
    sourceBit_congr (State.getV_setV_other _ _ _ _ hx) (State.getV_setV_other _ _ _ _ hy) rfl rfl
  simp only [bits, State.setFlag_fb, State.setScreen_fb] at pixels'
  refine ⟨?_, fun blank => ⟨?_, ?_⟩⟩
  · refine screen_ext_grid _ _ fun qx qy hqx hqy => ?_
    rw [State.setFlag_fb, State.setScreen_fb, pixels' qx qy hqx hqy, pixels qx qy hqx hqy, Bool.xor_assoc, Bool.xor_self,
      Bool.xor_false]
  · rw [State.getV_setFlag_vf, flagByte_eq_zero_iff, ← Bool.not_eq_true, collision]
    exact not_collides_of_blank blank
  · rw [State.getV_setFlag_vf, flagByte_eq_one_iff, collision', Collides, bits]
    refine exists₂_congr fun qx qy => and_congr_right fun hqx => and_congr_right fun hqy => ?_
    have first := pixels qx qy hqx hqy
    rw [blank _ (by omega), Bool.false_xor] at first
    rw [State.setFlag_fb, State.setScreen_fb, first, and_self]

end Sys2Proof.Machine
end

section
/-! The keypad and timer instructions (`45_keypad_timers.md`). -/

namespace Sys2Proof.Machine

variable {s : State} {x : Nibble} {k : Fin 16}

theorem keyOperand_of_toNat_eq (h : (s.getV x).toNat = k.val) : keyOperand s x = .ok k := by
  rcases keyOperand_cases s x with ⟨_, e⟩ | ⟨hout, -⟩
  · simp only [e, h]
  · omega

theorem exec_skp_of_key (h : (s.getV x).toNat = k.val) : exec (.skp x) s = .next (s.advance.skipIf s.key[k]) := by
  simp only [exec, execSkp, keyOperand_of_toNat_eq h]

theorem exec_sknp_of_key (h : (s.getV x).toNat = k.val) : exec (.sknp x) s = .next (s.advance.skipIf (!s.key[k])) := by
  simp only [exec, execSknp, keyOperand_of_toNat_eq h]

/-- Settles O46: the skips on the latch and on its opposite; the fault from the conditions of all faults. -/
theorem skipOnKey : Obligations.SkipOnKey := by
  refine fun x s => ⟨fun k hk => ⟨?_, ?_⟩, fun hout => ⟨?_, ?_⟩⟩
  · exact ⟨_, exec_skp_of_key hk, s.advance_skipIf_effect s.key[k]⟩
  · exact ⟨_, exec_sknp_of_key hk, s.advance_skipIf_not_effect s.key[k]⟩
  · exact (executionFaultsAreThese (.skp x) s _).mpr (.inr (.inr (.inr ⟨x, .inl rfl, hout, rfl⟩)))
  · exact (executionFaultsAreThese (.sknp x) s _).mpr (.inr (.inr (.inr ⟨x, .inr rfl, hout, rfl⟩)))

/-- Settles O47: one write each, of a register, of DT and of ST. -/
theorem timerReadAndWrite : Obligations.TimerReadAndWrite := by
  refine ⟨fun _ => decode_of_row (.ldVxDt 0), fun _ => decode_of_row (.ldDtVx 0), fun _ => decode_of_row (.ldStVx 0),
    fun x s => ⟨⟨_, rfl, s.advance_setV_effect x s.dt⟩, ⟨_, rfl, rfl, rfl, by simp⟩, ⟨_, rfl, rfl, rfl, by simp⟩⟩⟩

/-- Settles O48: a wait that ended would have found a key. -/
theorem keyWaitHolds : Obligations.KeyWaitHolds := by
  intro x s hnone
  rcases execLdVxK_cases s x with ⟨-, e⟩ | ⟨k, _, hk, -, -⟩
  · exact e
  · rw [hnone k] at hk
    exact Bool.noConfusion hk

/-- One latched key is the whole list of latched keys (`45_keypad_timers.md` R204). -/
theorem latchedKeys_eq_singleton (hk : s.key[k] = true) (only : ∀ j : Fin 16, s.key[j] = true → j = k) :
    s.latchedKeys = [k] := by
  have nodup : s.latchedKeys.Nodup := (List.nodup_finRange 16).filter _
  refine List.perm_singleton.mp ((List.perm_ext_iff_of_nodup nodup (List.nodup_singleton k)).mpr fun j => ?_)
  rw [mem_latchedKeys, List.mem_singleton]
  constructor
  · exact only j
  · rintro rfl
    exact hk

/-- With one key latched the wait ends with it and takes no free value (`45_keypad_timers.md` R204). -/
theorem exec_ldVxK_of_only (hk : s.key[k] = true) (only : ∀ j : Fin 16, s.key[j] = true → j = k) :
    exec (.ldVxK x) s = .next (s.advance.setV x (keyByte k)) := by
  simp only [exec, execLdVxK, latchedKeys_eq_singleton hk only]

/-- With a key latched the wait ends with some latched key. -/
theorem exec_ldVxK_of_latched (hk : s.key[k] = true) :
    ∃ j : Fin 16, ∃ t, s.key[j] = true ∧ (t = s.advance ∨ t = s.advance.countDraw) ∧
      exec (.ldVxK x) s = .next (t.setV x (keyByte j)) := by
  rcases execLdVxK_cases s x with ⟨hnone, -⟩ | latched
  · rw [hnone k] at hk
    exact Bool.noConfusion hk
  · exact latched

theorem getV_setV_keyByte (t : State) (x : Nibble) (k : Fin 16) : ((t.setV x (keyByte k)).getV x).toNat = k.val := by
  rw [State.getV_setV_same, toNat_keyByte]

/-- All that the end of a key wait does besides the choice of the key, with a free value taken or not. -/
theorem keyWait_effect {t : State} (h : t = s.advance ∨ t = s.advance.countDraw) (x : Nibble) (b : Byte) :
    (t.setV x b).pc = s.pc + 2 ∧ (∀ r, r ≠ x → (t.setV x b).getV r = s.getV r) ∧
      UnchangedExcept [.regs, .pc, .draws] s (t.setV x b) := by
  rcases h with rfl | rfl
  · exact ⟨rfl, fun r hr => State.getV_setV_other _ _ _ _ hr, by simp⟩
  · exact ⟨rfl, fun r hr => State.getV_setV_other _ _ _ _ hr, by simp⟩

/-- Settles O49, by whether `k` is the only key latched. -/
theorem keyWaitEnds : Obligations.KeyWaitEnds := by
  intro x s k hk
  by_cases only : ∀ j : Fin 16, s.key[j] = true → j = k
  · obtain ⟨hpc, others, frame⟩ := keyWait_effect (.inl rfl) x (keyByte k)
    exact ⟨_, exec_ldVxK_of_only hk only, hpc, ⟨k, hk, getV_setV_keyByte _ x k⟩,
      fun _ => ⟨getV_setV_keyByte _ x k, rfl⟩, others, frame⟩
  · obtain ⟨j, t, hj, ht, e⟩ := exec_ldVxK_of_latched (x := x) hk
    obtain ⟨hpc, others, frame⟩ := keyWait_effect ht x (keyByte j)
    exact ⟨_, e, hpc, ⟨j, hj, getV_setV_keyByte t x j⟩, fun h => absurd h only, others, frame⟩

end Sys2Proof.Machine
end
